-- ==== Sys2Proof/Word.lean ====
section
/-! DEFINITION. The words of the machine: XLEN is 32 (R10), a byte has 8 bits (R60), a register number 5 (R98). -/

namespace Sys2Proof

/-- A 32-bit value: general register, program counter, address, instruction word, ALU operand (R10, R11, R25). -/
abbrev Word := BitVec 32

/-- One byte of the memory image (R60). -/
abbrev Byte := BitVec 8

/-- A register number 0 to 31, as an instruction's 5-bit field names it (R30, R98). -/
abbrev Reg := BitVec 5

end Sys2Proof
end

