-- ==== Sys2Proof/Syntax.lean ====
section
/-! DEFINITION. The 38 instruction variants, one constructor per row of spec/opcode_table.json (R2, R119).
`imm` is the 32-bit value the format's immediate function gives (R100 to R104); `shamt` is the 5-bit
amount of R106. Which values an encoding can give is `Instr.wellFormed` (log 10). -/

namespace Sys2Proof

inductive Instr where
  -- upper immediate, U-type (R96)
  | lui (rd : Reg) (imm : Word)
  | auipc (rd : Reg) (imm : Word)
  -- jumps, J-type (R97) and I-type (R93)
  | jal (rd : Reg) (imm : Word)
  | jalr (rd rs1 : Reg) (imm : Word)
  -- branches, B-type (R95)
  | beq (rs1 rs2 : Reg) (imm : Word)
  | bne (rs1 rs2 : Reg) (imm : Word)
  | blt (rs1 rs2 : Reg) (imm : Word)
  | bge (rs1 rs2 : Reg) (imm : Word)
  | bltu (rs1 rs2 : Reg) (imm : Word)
  | bgeu (rs1 rs2 : Reg) (imm : Word)
  -- loads, I-type
  | lb (rd rs1 : Reg) (imm : Word)
  | lh (rd rs1 : Reg) (imm : Word)
  | lw (rd rs1 : Reg) (imm : Word)
  | lbu (rd rs1 : Reg) (imm : Word)
  | lhu (rd rs1 : Reg) (imm : Word)
  -- stores, S-type (R94): `rs1` is the base, `rs2` the value stored
  | sb (rs1 rs2 : Reg) (imm : Word)
  | sh (rs1 rs2 : Reg) (imm : Word)
  | sw (rs1 rs2 : Reg) (imm : Word)
  -- register-immediate arithmetic, I-type
  | addi (rd rs1 : Reg) (imm : Word)
  | slti (rd rs1 : Reg) (imm : Word)
  | sltiu (rd rs1 : Reg) (imm : Word)
  | xori (rd rs1 : Reg) (imm : Word)
  | ori (rd rs1 : Reg) (imm : Word)
  | andi (rd rs1 : Reg) (imm : Word)
  | slli (rd rs1 : Reg) (shamt : BitVec 5)
  | srli (rd rs1 : Reg) (shamt : BitVec 5)
  | srai (rd rs1 : Reg) (shamt : BitVec 5)
  -- register-register arithmetic, R-type (R92)
  | add (rd rs1 rs2 : Reg)
  | sub (rd rs1 rs2 : Reg)
  | sll (rd rs1 rs2 : Reg)
  | slt (rd rs1 rs2 : Reg)
  | sltu (rd rs1 rs2 : Reg)
  | xor (rd rs1 rs2 : Reg)
  | srl (rd rs1 rs2 : Reg)
  | sra (rd rs1 rs2 : Reg)
  | or (rd rs1 rs2 : Reg)
  | and (rd rs1 rs2 : Reg)
  -- environment call
  | ecall
  deriving DecidableEq, Repr

end Sys2Proof
end

