-- ==== Sys2Proof/WellFormed.lean ====
section
/-! DEFINITION. Which instructions have an encoding: each immediate lies in the range its format gives it (R100 to R104).
Register numbers and shift amounts are in range by their types. -/

namespace Sys2Proof

/-- I and S immediates: −2048 to 2047 (R100, R101). -/
def imm12Ok (v : Word) : Bool := decide (-2048 ≤ v.toInt ∧ v.toInt ≤ 2047)

/-- B immediates: −4096 to 4094, even (R102). -/
def immBOk (v : Word) : Bool := decide (-4096 ≤ v.toInt ∧ v.toInt ≤ 4094 ∧ v.toNat % 2 = 0)

/-- U immediates: the low 12 bits are 0 (R103). -/
def immUOk (v : Word) : Bool := decide (v.toNat % 4096 = 0)

/-- J immediates: −1048576 to 1048574, even (R104). -/
def immJOk (v : Word) : Bool :=
  decide (-1048576 ≤ v.toInt ∧ v.toInt ≤ 1048574 ∧ v.toNat % 2 = 0)

/-- The instruction's immediate is one its format can hold. -/
def Instr.wellFormed : Instr → Bool
  | .lui _ imm | .auipc _ imm => immUOk imm
  | .jal _ imm => immJOk imm
  | .jalr _ _ imm => imm12Ok imm
  | .beq _ _ imm | .bne _ _ imm | .blt _ _ imm
  | .bge _ _ imm | .bltu _ _ imm | .bgeu _ _ imm => immBOk imm
  | .lb _ _ imm | .lh _ _ imm | .lw _ _ imm | .lbu _ _ imm | .lhu _ _ imm => imm12Ok imm
  | .sb _ _ imm | .sh _ _ imm | .sw _ _ imm => imm12Ok imm
  | .addi _ _ imm | .slti _ _ imm | .sltiu _ _ imm
  | .xori _ _ imm | .ori _ _ imm | .andi _ _ imm => imm12Ok imm
  | .slli _ _ _ | .srli _ _ _ | .srai _ _ _ => true
  | .add _ _ _ | .sub _ _ _ | .sll _ _ _ | .slt _ _ _ | .sltu _ _ _
  | .xor _ _ _ | .srl _ _ _ | .sra _ _ _ | .or _ _ _ | .and _ _ _ => true
  | .ecall => true

abbrev Instr.WellFormed (i : Instr) : Prop := i.wellFormed = true

end Sys2Proof
end

