-- ==== Sys2Proof/Decode.lean ====
section
/-! DEFINITION. Field extraction (R91), immediates (R100 to R106), the decoder (R108 to R119), the encoder (R107), and
spec/opcode_table.json's rows. -/

namespace Sys2Proof

/-! ### Sign and zero extension (R26) -/

/-- `sext_n(v)`: the low `n` bits of `v`, sign-extended to 32 bits (R26). -/
def sext (n : Nat) (v : Word) : Word := (v.setWidth n).signExtend 32

/-- `zext_n(v)`: the low `n` bits of `v`, zero-extended to 32 bits (R26). -/
def zext (n : Nat) (v : Word) : Word := (v.setWidth n).setWidth 32

/-! ### Fields (R91) -/

def opcodeOf (w : Word) : BitVec 7 := w.extractLsb' 0 7
def rdOf (w : Word) : Reg := w.extractLsb' 7 5
def funct3Of (w : Word) : BitVec 3 := w.extractLsb' 12 3
def rs1Of (w : Word) : Reg := w.extractLsb' 15 5
def rs2Of (w : Word) : Reg := w.extractLsb' 20 5
def funct7Of (w : Word) : BitVec 7 := w.extractLsb' 25 7

/-! ### Immediates (R100 to R104, R106) -/

/-- `sext_12(word[31:20])` (R100). -/
def iImm (w : Word) : Word := (w.extractLsb' 20 12).signExtend 32

/-- `sext_12({word[31:25], word[11:7]})` (R101). -/
def sImm (w : Word) : Word := (w.extractLsb' 25 7 ++ w.extractLsb' 7 5).signExtend 32

/-- `sext_13({word[31], word[7], word[30:25], word[11:8], 0b0})` (R102). -/
def bImm (w : Word) : Word :=
  (w.extractLsb' 31 1 ++ w.extractLsb' 7 1 ++ w.extractLsb' 25 6 ++ w.extractLsb' 8 4
    ++ 0b0#1).signExtend 32

/-- `{word[31:12], 12'b0}` (R103). -/
def uImm (w : Word) : Word := w.extractLsb' 12 20 ++ 0#12

/-- `sext_21({word[31], word[19:12], word[20], word[30:21], 0b0})` (R104). -/
def jImm (w : Word) : Word :=
  (w.extractLsb' 31 1 ++ w.extractLsb' 12 8 ++ w.extractLsb' 20 1 ++ w.extractLsb' 21 10
    ++ 0b0#1).signExtend 32

/-- `shamt = word[24:20]` (R106). -/
def shamtOf (w : Word) : BitVec 5 := w.extractLsb' 20 5

/-! ### The decoder (R119) -/

/-- What a word decodes to: a variant, or one of the two decode faults by name (R108). -/
inductive Decoded where
  | instr (i : Instr)
  | unknownEncoding
  | undefinedBranchKind
  deriving DecidableEq, Repr

/-- BRANCH by `funct3` (R110). -/
def decodeBranch (w : Word) : Decoded :=
  let f3 := funct3Of w
  if f3 = 0b000#3 then .instr (.beq (rs1Of w) (rs2Of w) (bImm w))
  else if f3 = 0b001#3 then .instr (.bne (rs1Of w) (rs2Of w) (bImm w))
  else if f3 = 0b100#3 then .instr (.blt (rs1Of w) (rs2Of w) (bImm w))
  else if f3 = 0b101#3 then .instr (.bge (rs1Of w) (rs2Of w) (bImm w))
  else if f3 = 0b110#3 then .instr (.bltu (rs1Of w) (rs2Of w) (bImm w))
  else if f3 = 0b111#3 then .instr (.bgeu (rs1Of w) (rs2Of w) (bImm w))
  else .undefinedBranchKind

/-- LOAD by `funct3` (R111). -/
def decodeLoad (w : Word) : Decoded :=
  let f3 := funct3Of w
  if f3 = 0b000#3 then .instr (.lb (rdOf w) (rs1Of w) (iImm w))
  else if f3 = 0b001#3 then .instr (.lh (rdOf w) (rs1Of w) (iImm w))
  else if f3 = 0b010#3 then .instr (.lw (rdOf w) (rs1Of w) (iImm w))
  else if f3 = 0b100#3 then .instr (.lbu (rdOf w) (rs1Of w) (iImm w))
  else if f3 = 0b101#3 then .instr (.lhu (rdOf w) (rs1Of w) (iImm w))
  else .unknownEncoding

/-- STORE by `funct3` (R112). -/
def decodeStore (w : Word) : Decoded :=
  let f3 := funct3Of w
  if f3 = 0b000#3 then .instr (.sb (rs1Of w) (rs2Of w) (sImm w))
  else if f3 = 0b001#3 then .instr (.sh (rs1Of w) (rs2Of w) (sImm w))
  else if f3 = 0b010#3 then .instr (.sw (rs1Of w) (rs2Of w) (sImm w))
  else .unknownEncoding

/-- OP-IMM by `funct3`, and for the shifts by the whole `funct7` (R113). -/
def decodeOpImm (w : Word) : Decoded :=
  let f3 := funct3Of w
  let f7 := funct7Of w
  if f3 = 0b000#3 then .instr (.addi (rdOf w) (rs1Of w) (iImm w))
  else if f3 = 0b010#3 then .instr (.slti (rdOf w) (rs1Of w) (iImm w))
  else if f3 = 0b011#3 then .instr (.sltiu (rdOf w) (rs1Of w) (iImm w))
  else if f3 = 0b100#3 then .instr (.xori (rdOf w) (rs1Of w) (iImm w))
  else if f3 = 0b110#3 then .instr (.ori (rdOf w) (rs1Of w) (iImm w))
  else if f3 = 0b111#3 then .instr (.andi (rdOf w) (rs1Of w) (iImm w))
  else if f3 = 0b001#3 then
    if f7 = 0x00#7 then .instr (.slli (rdOf w) (rs1Of w) (shamtOf w)) else .unknownEncoding
  else
    if f7 = 0x00#7 then .instr (.srli (rdOf w) (rs1Of w) (shamtOf w))
    else if f7 = 0x20#7 then .instr (.srai (rdOf w) (rs1Of w) (shamtOf w))
    else .unknownEncoding

/-- OP by `funct7` and `funct3` (R114). -/
def decodeOp (w : Word) : Decoded :=
  let f3 := funct3Of w
  let f7 := funct7Of w
  if f7 = 0x00#7 then
    if f3 = 0b000#3 then .instr (.add (rdOf w) (rs1Of w) (rs2Of w))
    else if f3 = 0b001#3 then .instr (.sll (rdOf w) (rs1Of w) (rs2Of w))
    else if f3 = 0b010#3 then .instr (.slt (rdOf w) (rs1Of w) (rs2Of w))
    else if f3 = 0b011#3 then .instr (.sltu (rdOf w) (rs1Of w) (rs2Of w))
    else if f3 = 0b100#3 then .instr (.xor (rdOf w) (rs1Of w) (rs2Of w))
    else if f3 = 0b101#3 then .instr (.srl (rdOf w) (rs1Of w) (rs2Of w))
    else if f3 = 0b110#3 then .instr (.or (rdOf w) (rs1Of w) (rs2Of w))
    else .instr (.and (rdOf w) (rs1Of w) (rs2Of w))
  else if f7 = 0x20#7 then
    if f3 = 0b000#3 then .instr (.sub (rdOf w) (rs1Of w) (rs2Of w))
    else if f3 = 0b101#3 then .instr (.sra (rdOf w) (rs1Of w) (rs2Of w))
    else .unknownEncoding
  else .unknownEncoding

/-- The decode function: a total function of the word alone (R108, R119). -/
def decode (w : Word) : Decoded :=
  let op := opcodeOf w
  if op = 0x37#7 then .instr (.lui (rdOf w) (uImm w))
  else if op = 0x17#7 then .instr (.auipc (rdOf w) (uImm w))
  else if op = 0x6F#7 then .instr (.jal (rdOf w) (jImm w))
  else if op = 0x67#7 then
    if funct3Of w = 0b000#3 then .instr (.jalr (rdOf w) (rs1Of w) (iImm w)) else .unknownEncoding
  else if op = 0x63#7 then decodeBranch w
  else if op = 0x03#7 then decodeLoad w
  else if op = 0x23#7 then decodeStore w
  else if op = 0x13#7 then decodeOpImm w
  else if op = 0x33#7 then decodeOp w
  else if op = 0x73#7 then
    if w = 0x00000073#32 then .instr .ecall else .unknownEncoding
  else .unknownEncoding

/-! ### The encoder (R107)
Written from the encoding functions of R107, not from the decoder. -/

def encR (f7 : BitVec 7) (rs2 rs1 : Reg) (f3 : BitVec 3) (rd : Reg) (op : BitVec 7) : Word :=
  f7 ++ rs2 ++ rs1 ++ f3 ++ rd ++ op

def encI (imm : Word) (rs1 : Reg) (f3 : BitVec 3) (rd : Reg) (op : BitVec 7) : Word :=
  imm.extractLsb' 0 12 ++ rs1 ++ f3 ++ rd ++ op

def encS (imm : Word) (rs2 rs1 : Reg) (f3 : BitVec 3) (op : BitVec 7) : Word :=
  imm.extractLsb' 5 7 ++ rs2 ++ rs1 ++ f3 ++ imm.extractLsb' 0 5 ++ op

def encB (imm : Word) (rs2 rs1 : Reg) (f3 : BitVec 3) (op : BitVec 7) : Word :=
  imm.extractLsb' 12 1 ++ imm.extractLsb' 5 6 ++ rs2 ++ rs1 ++ f3 ++ imm.extractLsb' 1 4
    ++ imm.extractLsb' 11 1 ++ op

def encU (imm : Word) (rd : Reg) (op : BitVec 7) : Word :=
  imm.extractLsb' 12 20 ++ rd ++ op

def encJ (imm : Word) (rd : Reg) (op : BitVec 7) : Word :=
  imm.extractLsb' 20 1 ++ imm.extractLsb' 1 10 ++ imm.extractLsb' 11 1 ++ imm.extractLsb' 12 8
    ++ rd ++ op

/-- The word of an instruction, from R107 and the code values of R109 to R117. -/
def encode : Instr → Word
  | .lui rd imm => encU imm rd 0x37#7
  | .auipc rd imm => encU imm rd 0x17#7
  | .jal rd imm => encJ imm rd 0x6F#7
  | .jalr rd rs1 imm => encI imm rs1 0b000#3 rd 0x67#7
  | .beq rs1 rs2 imm => encB imm rs2 rs1 0b000#3 0x63#7
  | .bne rs1 rs2 imm => encB imm rs2 rs1 0b001#3 0x63#7
  | .blt rs1 rs2 imm => encB imm rs2 rs1 0b100#3 0x63#7
  | .bge rs1 rs2 imm => encB imm rs2 rs1 0b101#3 0x63#7
  | .bltu rs1 rs2 imm => encB imm rs2 rs1 0b110#3 0x63#7
  | .bgeu rs1 rs2 imm => encB imm rs2 rs1 0b111#3 0x63#7
  | .lb rd rs1 imm => encI imm rs1 0b000#3 rd 0x03#7
  | .lh rd rs1 imm => encI imm rs1 0b001#3 rd 0x03#7
  | .lw rd rs1 imm => encI imm rs1 0b010#3 rd 0x03#7
  | .lbu rd rs1 imm => encI imm rs1 0b100#3 rd 0x03#7
  | .lhu rd rs1 imm => encI imm rs1 0b101#3 rd 0x03#7
  | .sb rs1 rs2 imm => encS imm rs2 rs1 0b000#3 0x23#7
  | .sh rs1 rs2 imm => encS imm rs2 rs1 0b001#3 0x23#7
  | .sw rs1 rs2 imm => encS imm rs2 rs1 0b010#3 0x23#7
  | .addi rd rs1 imm => encI imm rs1 0b000#3 rd 0x13#7
  | .slti rd rs1 imm => encI imm rs1 0b010#3 rd 0x13#7
  | .sltiu rd rs1 imm => encI imm rs1 0b011#3 rd 0x13#7
  | .xori rd rs1 imm => encI imm rs1 0b100#3 rd 0x13#7
  | .ori rd rs1 imm => encI imm rs1 0b110#3 rd 0x13#7
  | .andi rd rs1 imm => encI imm rs1 0b111#3 rd 0x13#7
  | .slli rd rs1 shamt => encR 0x00#7 shamt rs1 0b001#3 rd 0x13#7
  | .srli rd rs1 shamt => encR 0x00#7 shamt rs1 0b101#3 rd 0x13#7
  | .srai rd rs1 shamt => encR 0x20#7 shamt rs1 0b101#3 rd 0x13#7
  | .add rd rs1 rs2 => encR 0x00#7 rs2 rs1 0b000#3 rd 0x33#7
  | .sub rd rs1 rs2 => encR 0x20#7 rs2 rs1 0b000#3 rd 0x33#7
  | .sll rd rs1 rs2 => encR 0x00#7 rs2 rs1 0b001#3 rd 0x33#7
  | .slt rd rs1 rs2 => encR 0x00#7 rs2 rs1 0b010#3 rd 0x33#7
  | .sltu rd rs1 rs2 => encR 0x00#7 rs2 rs1 0b011#3 rd 0x33#7
  | .xor rd rs1 rs2 => encR 0x00#7 rs2 rs1 0b100#3 rd 0x33#7
  | .srl rd rs1 rs2 => encR 0x00#7 rs2 rs1 0b101#3 rd 0x33#7
  | .sra rd rs1 rs2 => encR 0x20#7 rs2 rs1 0b101#3 rd 0x33#7
  | .or rd rs1 rs2 => encR 0x00#7 rs2 rs1 0b110#3 rd 0x33#7
  | .and rd rs1 rs2 => encR 0x00#7 rs2 rs1 0b111#3 rd 0x33#7
  | .ecall => 0x00000073#32

/-! ### spec/opcode_table.json -/

/-- The row of spec/opcode_table.json an instruction belongs to: its "mask" and its "match". -/
def Instr.tableRow : Instr → Word × Word
  | .lui _ _ => (0x0000007F#32, 0x00000037#32)
  | .auipc _ _ => (0x0000007F#32, 0x00000017#32)
  | .jal _ _ => (0x0000007F#32, 0x0000006F#32)
  | .jalr _ _ _ => (0x0000707F#32, 0x00000067#32)
  | .beq _ _ _ => (0x0000707F#32, 0x00000063#32)
  | .bne _ _ _ => (0x0000707F#32, 0x00001063#32)
  | .blt _ _ _ => (0x0000707F#32, 0x00004063#32)
  | .bge _ _ _ => (0x0000707F#32, 0x00005063#32)
  | .bltu _ _ _ => (0x0000707F#32, 0x00006063#32)
  | .bgeu _ _ _ => (0x0000707F#32, 0x00007063#32)
  | .lb _ _ _ => (0x0000707F#32, 0x00000003#32)
  | .lh _ _ _ => (0x0000707F#32, 0x00001003#32)
  | .lw _ _ _ => (0x0000707F#32, 0x00002003#32)
  | .lbu _ _ _ => (0x0000707F#32, 0x00004003#32)
  | .lhu _ _ _ => (0x0000707F#32, 0x00005003#32)
  | .sb _ _ _ => (0x0000707F#32, 0x00000023#32)
  | .sh _ _ _ => (0x0000707F#32, 0x00001023#32)
  | .sw _ _ _ => (0x0000707F#32, 0x00002023#32)
  | .addi _ _ _ => (0x0000707F#32, 0x00000013#32)
  | .slti _ _ _ => (0x0000707F#32, 0x00002013#32)
  | .sltiu _ _ _ => (0x0000707F#32, 0x00003013#32)
  | .xori _ _ _ => (0x0000707F#32, 0x00004013#32)
  | .ori _ _ _ => (0x0000707F#32, 0x00006013#32)
  | .andi _ _ _ => (0x0000707F#32, 0x00007013#32)
  | .slli _ _ _ => (0xFE00707F#32, 0x00001013#32)
  | .srli _ _ _ => (0xFE00707F#32, 0x00005013#32)
  | .srai _ _ _ => (0xFE00707F#32, 0x40005013#32)
  | .add _ _ _ => (0xFE00707F#32, 0x00000033#32)
  | .sub _ _ _ => (0xFE00707F#32, 0x40000033#32)
  | .sll _ _ _ => (0xFE00707F#32, 0x00001033#32)
  | .slt _ _ _ => (0xFE00707F#32, 0x00002033#32)
  | .sltu _ _ _ => (0xFE00707F#32, 0x00003033#32)
  | .xor _ _ _ => (0xFE00707F#32, 0x00004033#32)
  | .srl _ _ _ => (0xFE00707F#32, 0x00005033#32)
  | .sra _ _ _ => (0xFE00707F#32, 0x40005033#32)
  | .or _ _ _ => (0xFE00707F#32, 0x00006033#32)
  | .and _ _ _ => (0xFE00707F#32, 0x00007033#32)
  | .ecall => (0xFFFFFFFF#32, 0x00000073#32)

/-- The instruction word whose low `nbits` bits are `w` and whose other bits are 0, numbered as
spec/opcode_table.json numbers them. Every row has one 32-bit word (R11), so the table's bit 0 is bit
0 of that word; its bytes are laid out little-endian where it is stored (R61). -/
def tableWord (nbits w : Nat) : Word := BitVec.ofNat 32 (w % 2 ^ nbits)

/-- The instruction the decoder reads from that word, none where it rejects it. -/
def decodeTableWord (nbits w : Nat) : Option Instr :=
  match decode (tableWord nbits w) with
  | .instr i => some i
  | .unknownEncoding => none
  | .undefinedBranchKind => none

end Sys2Proof
end

