-- ==== Sys2Proof/Machine/Flags.lean ====
section
/-! DEFINITION. The hardware has no flags (R39): no instruction sets one. What a machine with flags would compute through them
is computed here directly: the six branch comparisons (R180 to R186). -/

namespace Sys2Proof.Machine

/-- The comparison kinds of BRANCH. -/
inductive Comparison where
  | eq | ne | lt | ge | ltu | geu
  deriving DecidableEq, Repr

/-- The outcome of a comparison: `lt` and `ge` read their operands as two's complement, `ltu` and `geu`
as unsigned (R25, R181 to R186). -/
def compareWords : Comparison → Word → Word → Bool
  | .eq, a, b => a == b
  | .ne, a, b => a != b
  | .lt, a, b => decide (a.toInt < b.toInt)
  | .ge, a, b => decide (a.toInt ≥ b.toInt)
  | .ltu, a, b => decide (a.toNat < b.toNat)
  | .geu, a, b => decide (a.toNat ≥ b.toNat)

end Sys2Proof.Machine
end

