-- ==== Sys2Proof/Machine/Alu.lean ====
section
/-! DEFINITION. The 32-bit ALU, shared by OP-IMM and OP (R230 to R242). -/

namespace Sys2Proof.Machine

/-- The ten ALU operations (R230). -/
inductive AluOp where
  | add | sub | and | or | xor | sll | srl | sra | slt | sltu
  deriving DecidableEq, Repr

/-- The shift amount: the low five bits of the second operand, 0 to 31 (R236). -/
def shiftAmount (b : Word) : Nat := (b.extractLsb' 0 5).toNat

/-- The result of a set-less-than: 1 or 0 (R240, R241). -/
def boolWord (c : Bool) : Word := if c then 0x00000001#32 else 0x00000000#32

/-- `alu(op, a, b)`: pure, total, no flag, no exception (R230). -/
def alu : AluOp → Word → Word → Word
  | .add, a, b => a + b                                   -- R231
  | .sub, a, b => a - b                                   -- R232
  | .and, a, b => a &&& b                                 -- R233
  | .or, a, b => a ||| b                                  -- R234
  | .xor, a, b => a ^^^ b                                 -- R235
  | .sll, a, b => a <<< shiftAmount b                     -- R237
  | .srl, a, b => a >>> shiftAmount b                     -- R238
  | .sra, a, b => a.sshiftRight (shiftAmount b)           -- R239
  | .slt, a, b => boolWord (compareWords .lt a b)         -- R240
  | .sltu, a, b => boolWord (compareWords .ltu a b)       -- R241

end Sys2Proof.Machine
end

