-- ==== Sys2Proof/Config.lean ====
section
/-! DEFINITION. The parameters of a run (R12 to R15, R18) and the shapes of data they are made of. -/

namespace Sys2Proof

/-- The stored part of the register file: x1 to x31, register `r` at index `r - 1`.
x0 is hard-wired (R32, R33) and has no storage, so that two register files with the same contents
are the same data (log 11). -/
abbrev Regs := Vector Word 31

/-- The memory image (R42, R60) as (address, byte) pairs in one canonical form, `Memory.wf`. -/
abbrev Memory := List Host.Cell

/-- What an ECALL presents to the handler: the whole architectural state (R20, R293), `pc` still
the address of the ECALL (R290). `memSize` is part of the image's shape. -/
structure EnvRequest where
  x : Regs
  pc : Word
  memSize : Nat
  mem : Memory
  deriving DecidableEq, Repr

/-- The handler's answer (R21). `x'` and `mem'` of a `Resume` have the shape of the block's own
(R292); `x'[0]` is ignored, so a register file without x0 says all of `x'`. -/
inductive EnvResponse where
  | terminate
  | resume (x' : Regs) (mem' : Memory)
  deriving DecidableEq, Repr, Inhabited

/-- Which handler a run has (the parameter ENV_HANDLER, R15).
`constant r` answers `r` to every ECALL; `constant .terminate` is the reference handler
AlwaysTerminate (R294). `external` is the handler outside the block, of which nothing is known
(DESIGN CHOICE, log 4). -/
inductive Handler where
  | constant (r : EnvResponse)
  | external
  deriving DecidableEq, Repr

/-- The answers of the external handler: a function from the architectural state at an ECALL (R15),
with no body, so that no proof can see which function it is (U5; log 4, log 5). -/
opaque Config.envHandler : EnvRequest → EnvResponse

/-- MEM_SIZE of the reference configuration: 65536 words of 4 bytes (R12). -/
def Config.referenceMemSize : Nat := 262144

/-- The largest MEM_SIZE (R12): addresses have 32 bits. -/
def Config.maxMemSize : Nat := 2 ^ 32

/-- ENTRY_PC of `State.reset` (DESIGN CHOICE, log 2: R13 admits any 32-bit value). -/
def Config.referenceEntryPc : Word := 0x00000000#32

/-- The inputs at the start of a run (R18) and the handler (R15). INIT_MEM (R14) is given as cells; bytes
no cell gives are 0x00 (log 3). -/
structure Params where
  memSize : Nat
  initMem : List Host.Cell
  entryPc : Word
  handler : Handler
  deriving DecidableEq, Repr

/-- MEM_SIZE is admitted: 0 < MEM_SIZE ≤ 2^32 (R12). -/
abbrev Params.admitted (p : Params) : Prop := 0 < p.memSize ∧ p.memSize ≤ Config.maxMemSize

end Sys2Proof
end

