-- ==== Sys2Proof/Machine/State.lean ====
section
/-! DEFINITION. The state of the block: register file, program counter, memory image and run status (R30 to R46), with the
two parameters of a run that a step reads; the reasons a run ends; the reasons a step has no next state. -/

namespace Sys2Proof.Machine

/-- The four faults of the hardware with their diagnostic information (R300 to R305). Each is fatal and
is recorded in `status` (R148); raising one is a NEXT state (log 7). -/
inductive CoreFault where
  /-- PC not a multiple of 4 at fetch time (R301); raised by fetch only. -/
  | misalignedFetch (pc : Word)
  /-- The word is none of the 38 variants (R302); raised by decode only. -/
  | unknownEncoding (opcode : BitVec 7) (word : Word) (pc : Word)
  /-- The access of `width` bytes at `addr` leaves the image (R303); raised by fetch, loads, stores. -/
  | outOfBounds (addr : Word) (width : Nat)
  /-- BRANCH word with `funct3` 010 or 011 (R304); raised by decode only. -/
  | undefinedBranchKind (funct3 : BitVec 3) (word : Word) (pc : Word)
  deriving DecidableEq, Repr

/-- Why a run ended (R22). -/
inductive Reason where
  /-- An ECALL the handler answered with Terminate (R291). -/
  | envExit
  | fault (f : CoreFault)
  deriving DecidableEq, Repr

/-- The run status (R43). -/
inductive Status where
  | running
  | terminated (r : Reason)
  deriving DecidableEq, Repr

/-- The state between two steps. `x`, `pc`, `mem` and `status` are the spec's (R44); `memSize` is the
length of `mem` (MEM_SIZE, R12, R42; log 1) and `handler` says which ENV_HANDLER the run has (R15;
the model's own field, log 4). No step changes the last two. -/
structure State where
  x : Regs
  pc : Word
  mem : Memory
  memSize : Nat
  status : Status
  handler : Handler
  deriving DecidableEq, Repr

/-- Why a step has no next state. -/
inductive Fault where
  /-- Raised by `step` alone, in a state whose run has ended: no step exists from there (R43, R140, U13).
  Safe: the model stops where the spec defines nothing. -/
  | stepAfterTermination (r : Reason)
  deriving DecidableEq, Repr

/-- Why an instruction has no meaning. -/
inductive Refusal where
  /-- Raised by an arm of `exec` whose instruction has no meaning yet; every instruction has one, so no
  arm raises it. Safe: the model stops. -/
  | notModelled (mnemonic : String)
  deriving DecidableEq, Repr

/-- The machine at the start of a run (R46, R340): x1 to x31 zero, status Running. The parameters
have the reference MEM_SIZE (R12; log 1), ENTRY_PC 0 (DESIGN CHOICE, log 2), an INIT_MEM of zero bytes
(DESIGN CHOICE, log 3) and the external handler (DESIGN CHOICE, log 4). `State.start` is the start of a
run under any parameters. -/
def State.reset : State where
  x := Vector.replicate 31 0x00000000#32
  pc := Config.referenceEntryPc
  mem := []
  memSize := Config.referenceMemSize
  status := .running
  handler := .external

end Sys2Proof.Machine
end

