-- ==== Sys2Proof/Machine/Memory.lean ====
section
/-! DEFINITION. The memory image as a canonical list of cells: reading and writing bytes, and the little-endian order of
wider values (R60, R61), decided here once. -/

namespace Sys2Proof

/-- What an address that no cell lists reads as (DESIGN CHOICE, log 3). Every image is a list of
cells, so nothing but the notation of an image depends on it. -/
def Memory.unlisted : Byte := 0x00#8

/-- The canonical form: addresses strictly rising, no cell that says what an unlisted address reads as. -/
abbrev Memory.wf (m : Memory) : Prop :=
  List.Pairwise (fun c d : Host.Cell => c.1 < d.1) m ∧ ∀ c ∈ m, c.2 ≠ Memory.unlisted

/-- Every listed address is one of the image's `size` bytes (R60, R70). -/
abbrev Memory.within (m : Memory) (size : Nat) : Prop := ∀ c ∈ m, c.1 < size

/-- Byte `a` of the image (R60). -/
def Memory.read : Memory → Nat → Byte
  | [], _ => Memory.unlisted
  | (b, v) :: m, a => if a = b then v else Memory.read m a

/-- The image with byte `a` set to `v`, in canonical form. -/
def Memory.write : Memory → Nat → Byte → Memory
  | [], a, v => if v = Memory.unlisted then [] else [(a, v)]
  | (b, u) :: m, a, v =>
    if a < b then (if v = Memory.unlisted then (b, u) :: m else (a, v) :: (b, u) :: m)
    else if a = b then (if v = Memory.unlisted then m else (a, v) :: m)
    else (b, u) :: Memory.write m a v

/-- The `n`-byte value at `a`, little-endian, zero-extended to 32 bits (R61, R64). -/
def Memory.readLE (m : Memory) : Nat → Nat → Word
  | _, 0 => 0#32
  | a, n + 1 => (Memory.readLE m (a + 1) n <<< 8) ||| (m.read a).setWidth 32

/-- The image with the low `n` bytes of `v` at `a`, little-endian (R61, R65). -/
def Memory.writeLE : Memory → Nat → Nat → Word → Memory
  | m, _, 0, _ => m
  | m, a, n + 1, v => Memory.writeLE (m.write a (v.setWidth 8)) (a + 1) n (v >>> 8)

/-- The image of `size` bytes that the cells say, in canonical form: cells outside it are dropped, and
of two cells for one address the later counts (log 6). -/
def Memory.ofCells (size : Nat) (cells : List Host.Cell) : Memory :=
  cells.foldl (fun m c => if c.1 < size then m.write c.1 c.2 else m) []

end Sys2Proof
end

