-- ==== Sys2Proof/Machine/Operands.lean ====
section
/-! DEFINITION. Reading registers and forming operands: base plus offset, the second ALU operand, branch and jump targets. -/

namespace Sys2Proof

/-- `x[r]`: x0 reads as 0, any other register as it was last written (R32). -/
def Regs.read (x : Regs) (r : Reg) : Word :=
  if h : r = 0#5 then 0x00000000#32
  else x[r.toNat - 1]'(by have := r.isLt; omega)

/-- `x[r] <- v`: a write to x0 is discarded (R33). -/
def Regs.write (x : Regs) (r : Reg) (v : Word) : Regs :=
  if h : r = 0#5 then x
  else x.set (r.toNat - 1) v (by have := r.isLt; omega)

namespace Machine

/-- Base plus offset, modulo 2^32: the address of every load and store (R200, R220). -/
def effectiveAddr (s : State) (rs1 : Reg) (imm : Word) : Word := s.x.read rs1 + imm

/-- The address after this instruction, modulo 2^32 (R36, R38). -/
def nextPc (s : State) : Word := s.pc + 4#32

/-- The target of a JAL or a taken branch, relative to the instruction's own address (R170, R180). -/
def pcRelative (s : State) (imm : Word) : Word := s.pc + imm

/-- The target of a JALR: the sum modulo 2^32 with bit 0 cleared (R171). -/
def jalrTarget (s : State) (rs1 : Reg) (imm : Word) : Word :=
  (s.x.read rs1 + imm) &&& 0xFFFFFFFE#32

/-- The 5-bit amount of an OP-IMM shift as an ALU operand (R250). -/
def shamtOperand (shamt : BitVec 5) : Word := shamt.setWidth 32

end Machine

end Sys2Proof
end

