-- ==== Sys2Proof/Machine/Ops.lean ====
section
/-! DEFINITION. The shared operations: named updates of the state, checked memory accesses (R63 to R65), raising a fault
(R148), committing an instruction (R147), fetching (R141 to R143), decode faults (R144), the environment call (R290 to R293),
and the start of a run (R340). -/

namespace Sys2Proof.Machine

abbrev Result := Host.Outcome State Fault Refusal

/-! ### Named updates -/

def State.withX (s : State) (x : Regs) : State := { s with x := x }
def State.withPc (s : State) (pc : Word) : State := { s with pc := pc }
def State.withMem (s : State) (mem : Memory) : State := { s with mem := mem }
def State.withStatus (s : State) (status : Status) : State := { s with status := status }

/-- `x[rd] <- v` (R33). -/
def State.writeReg (s : State) (rd : Reg) (v : Word) : State := s.withX (s.x.write rd v)

/-! ### Checked memory accesses -/

/-- The access of `n` bytes at `addr` lies in the image: an integer sum, no wrap-around (R63). -/
abbrev inBounds (s : State) (addr : Word) (n : Nat) : Prop := addr.toNat + n ≤ s.memSize

/-- `MemRead(addr, n)` (R64): the value, zero-extended to 32 bits, or the fault. -/
def memRead (s : State) (addr : Word) (n : Nat) : Except CoreFault Word :=
  if inBounds s addr n then .ok (s.mem.readLE addr.toNat n) else .error (.outOfBounds addr n)

/-- `MemWrite(addr, n, v)` (R65): the image with the low `n` bytes of `v` at `addr`, or the fault with
no byte written. -/
def memWrite (s : State) (addr : Word) (n : Nat) (v : Word) : Except CoreFault Memory :=
  if inBounds s addr n then .ok (s.mem.writeLE addr.toNat n v) else .error (.outOfBounds addr n)

/-! ### Ending a step -/

/-- `raise F`: taking an exception on this hardware. Only `status` changes; registers, pc and memory keep
the values they had before the step (R148, R307). There is no handler, nothing is saved and there is no
return (R307, R308). -/
def raise (f : CoreFault) (s : State) : Result := .next (s.withStatus (.terminated (.fault f)))

/-- Commit a register write, if any, and the next pc (R147). -/
def commitReg (rd : Reg) (v : Word) (next : Word) (s : State) : Result :=
  .next ((s.writeReg rd v).withPc next)

/-- Commit a memory write and the default advance (R147, R36). -/
def commitMem (mem : Memory) (s : State) : Result := .next ((s.withMem mem).withPc (nextPc s))

/-- Commit the next pc alone (R147). -/
def commitPc (next : Word) (s : State) : Result := .next (s.withPc next)

/-! ### The shapes of instructions -/

/-- `opimm(op)` and `op(f)` (R250, R270): an ALU result into `rd`, default advance. -/
def aluInto (op : AluOp) (rd : Reg) (a b : Word) (s : State) : Result :=
  commitReg rd (alu op a b) (nextPc s) s

/-- OP: both operands are registers (R270). -/
def opReg (op : AluOp) (rd rs1 rs2 : Reg) (s : State) : Result :=
  aluInto op rd (s.x.read rs1) (s.x.read rs2) s

/-- OP-IMM: the second operand is the immediate (R250). -/
def opImm (op : AluOp) (rd rs1 : Reg) (b : Word) (s : State) : Result :=
  aluInto op rd (s.x.read rs1) b s

/-- `branch(cond)` (R180). -/
def branch (c : Comparison) (rs1 rs2 : Reg) (imm : Word) (s : State) : Result :=
  commitPc (if compareWords c (s.x.read rs1) (s.x.read rs2) then pcRelative s imm else nextPc s) s

/-- Jump to `target`, the address of the next instruction into `rd` (R170, R171). -/
def jumpAndLink (rd : Reg) (target : Word) (s : State) : Result :=
  commitReg rd (nextPc s) target s

/-- The 32-bit result of a load from the `n` bytes read (R68). -/
def extendLoaded (n : Nat) (signed : Bool) (v : Word) : Word :=
  if signed then sext (8 * n) v else zext (8 * n) v

/-- `load(n, signed)` (R200). -/
def load (n : Nat) (signed : Bool) (rd rs1 : Reg) (imm : Word) (s : State) : Result :=
  match memRead s (effectiveAddr s rs1 imm) n with
  | .ok v => commitReg rd (extendLoaded n signed v) (nextPc s) s
  | .error f => raise f s

/-- `store(n)` (R220). -/
def store (n : Nat) (rs1 rs2 : Reg) (imm : Word) (s : State) : Result :=
  match memWrite s (effectiveAddr s rs1 imm) n (s.x.read rs2) with
  | .ok mem => commitMem mem s
  | .error f => raise f s

/-! ### The environment call -/

/-- What the block presents at an ECALL (R20, R290, R293). -/
def envRequest (s : State) : EnvRequest :=
  { x := s.x, pc := s.pc, memSize := s.memSize, mem := s.mem }

/-- The answer of the run's handler (R15, R293, R294; log 4). -/
def askHandler (s : State) : EnvResponse :=
  match s.handler with
  | .constant r => r
  | .external => Config.envHandler (envRequest s)

/-- The state after an answer: Terminate ends the run and changes nothing else (R291), Resume replaces
the register file and the image and advances (R292). -/
def answer (r : EnvResponse) (s : State) : State :=
  match r with
  | .terminate => s.withStatus (.terminated .envExit)
  | .resume x' mem' =>
    ((s.withX x').withMem (Memory.ofCells s.memSize mem')).withPc (nextPc s)

/-! ### Fetch and decode -/

/-- Fetch (R141 to R143): alignment first, then bounds, then the word at `pc`, little-endian. -/
def fetch (s : State) : Except CoreFault Word :=
  if s.pc.toNat % 4 ≠ 0 then .error (.misalignedFetch s.pc) else memRead s s.pc 4

/-- Fetch and decode: the instruction this step executes, or the fault it raises (R144, R306). -/
def fetchDecode (s : State) : Except CoreFault Instr :=
  match fetch s with
  | .error f => .error f
  | .ok w =>
    match decode w with
    | .instr i => .ok i
    | .unknownEncoding => .error (.unknownEncoding (opcodeOf w) w s.pc)
    | .undefinedBranchKind => .error (.undefinedBranchKind (funct3Of w) w s.pc)

/-- The next fetch reaches a word: `pc` is aligned and in bounds (R142, R143). -/
abbrev fetchable (s : State) : Prop := s.pc.toNat % 4 = 0 ∧ inBounds s s.pc 4

/-! ### The start of a run -/

/-- The start of a run under parameters `p` (R46, R340). -/
def State.start (p : Params) : State where
  x := Vector.replicate 31 0x00000000#32
  pc := p.entryPc
  mem := Memory.ofCells p.memSize p.initMem
  memSize := p.memSize
  status := .running
  handler := p.handler

end Sys2Proof.Machine
end

