-- ==== Sys2Proof/Machine/Branches.lean ====
section
/-! DEFINITION. Conditional branches (R180 to R186). -/

namespace Sys2Proof.Machine

/-- BEQ (R181). -/
def execBeq (rs1 rs2 : Reg) (imm : Word) (s : State) : Result :=
  branch .eq rs1 rs2 imm s

/-- BNE (R182). -/
def execBne (rs1 rs2 : Reg) (imm : Word) (s : State) : Result :=
  branch .ne rs1 rs2 imm s

/-- BLT, signed (R183). -/
def execBlt (rs1 rs2 : Reg) (imm : Word) (s : State) : Result :=
  branch .lt rs1 rs2 imm s

/-- BGE, signed (R184). -/
def execBge (rs1 rs2 : Reg) (imm : Word) (s : State) : Result :=
  branch .ge rs1 rs2 imm s

/-- BLTU, unsigned (R185). -/
def execBltu (rs1 rs2 : Reg) (imm : Word) (s : State) : Result :=
  branch .ltu rs1 rs2 imm s

/-- BGEU, unsigned (R186). -/
def execBgeu (rs1 rs2 : Reg) (imm : Word) (s : State) : Result :=
  branch .geu rs1 rs2 imm s

end Sys2Proof.Machine
end

