-- ==== Sys2Proof/Machine/Environment.lean ====
section
/-! DEFINITION. The environment call (R290 to R294). It is not a trap (R309). -/

namespace Sys2Proof.Machine

/-- ECALL: the handler answers within this step, and the block acts on the answer (R290). -/
def execEcall (s : State) : Result :=
  .next (answer (askHandler s) s)

end Sys2Proof.Machine
end

