-- ==== Sys2Proof/Machine/Jumps.lean ====
section
/-! DEFINITION. Jumps (R170, R171). The target is not checked here: the next fetch checks it (R147). -/

namespace Sys2Proof.Machine

/-- JAL (R170). -/
def execJal (rd : Reg) (imm : Word) (s : State) : Result :=
  jumpAndLink rd (pcRelative s imm) s

/-- JALR: the target from the old `x[rs1]`, bit 0 cleared (R145, R171). -/
def execJalr (rd rs1 : Reg) (imm : Word) (s : State) : Result :=
  jumpAndLink rd (jalrTarget s rs1 imm) s

end Sys2Proof.Machine
end

