-- ==== Sys2Proof/Machine/Loads.lean ====
section
/-! DEFINITION. Loads (R200 to R205). -/

namespace Sys2Proof.Machine

/-- LB: one byte, sign-extended (R201). -/
def execLb (rd rs1 : Reg) (imm : Word) (s : State) : Result :=
  load 1 true rd rs1 imm s

/-- LH: two bytes, sign-extended (R202). -/
def execLh (rd rs1 : Reg) (imm : Word) (s : State) : Result :=
  load 2 true rd rs1 imm s

/-- LW: four bytes (R203). -/
def execLw (rd rs1 : Reg) (imm : Word) (s : State) : Result :=
  load 4 true rd rs1 imm s

/-- LBU: one byte, zero-extended (R204). -/
def execLbu (rd rs1 : Reg) (imm : Word) (s : State) : Result :=
  load 1 false rd rs1 imm s

/-- LHU: two bytes, zero-extended (R205). -/
def execLhu (rd rs1 : Reg) (imm : Word) (s : State) : Result :=
  load 2 false rd rs1 imm s

end Sys2Proof.Machine
end

