-- ==== Sys2Proof/Machine/Op.lean ====
section
/-! DEFINITION. Register-register arithmetic (R270 to R280). -/

namespace Sys2Proof.Machine

/-- ADD (R271). -/
def execAdd (rd rs1 rs2 : Reg) (s : State) : Result :=
  opReg .add rd rs1 rs2 s

/-- SUB (R272). -/
def execSub (rd rs1 rs2 : Reg) (s : State) : Result :=
  opReg .sub rd rs1 rs2 s

/-- SLL (R273). -/
def execSll (rd rs1 rs2 : Reg) (s : State) : Result :=
  opReg .sll rd rs1 rs2 s

/-- SLT, signed (R274). -/
def execSlt (rd rs1 rs2 : Reg) (s : State) : Result :=
  opReg .slt rd rs1 rs2 s

/-- SLTU, unsigned (R275). -/
def execSltu (rd rs1 rs2 : Reg) (s : State) : Result :=
  opReg .sltu rd rs1 rs2 s

/-- XOR (R276). -/
def execXor (rd rs1 rs2 : Reg) (s : State) : Result :=
  opReg .xor rd rs1 rs2 s

/-- SRL (R277). -/
def execSrl (rd rs1 rs2 : Reg) (s : State) : Result :=
  opReg .srl rd rs1 rs2 s

/-- SRA (R278). -/
def execSra (rd rs1 rs2 : Reg) (s : State) : Result :=
  opReg .sra rd rs1 rs2 s

/-- OR (R279). -/
def execOr (rd rs1 rs2 : Reg) (s : State) : Result :=
  opReg .or rd rs1 rs2 s

/-- AND (R280). -/
def execAnd (rd rs1 rs2 : Reg) (s : State) : Result :=
  opReg .and rd rs1 rs2 s

end Sys2Proof.Machine
end

