-- ==== Sys2Proof/Machine/OpImm.lean ====
section
/-! DEFINITION. Register-immediate arithmetic (R250 to R259). -/

namespace Sys2Proof.Machine

/-- ADDI (R251). -/
def execAddi (rd rs1 : Reg) (imm : Word) (s : State) : Result :=
  opImm .add rd rs1 imm s

/-- SLTI, signed (R252). -/
def execSlti (rd rs1 : Reg) (imm : Word) (s : State) : Result :=
  opImm .slt rd rs1 imm s

/-- SLTIU: the sign-extended immediate read unsigned (R253). -/
def execSltiu (rd rs1 : Reg) (imm : Word) (s : State) : Result :=
  opImm .sltu rd rs1 imm s

/-- XORI (R254). -/
def execXori (rd rs1 : Reg) (imm : Word) (s : State) : Result :=
  opImm .xor rd rs1 imm s

/-- ORI (R255). -/
def execOri (rd rs1 : Reg) (imm : Word) (s : State) : Result :=
  opImm .or rd rs1 imm s

/-- ANDI (R256). -/
def execAndi (rd rs1 : Reg) (imm : Word) (s : State) : Result :=
  opImm .and rd rs1 imm s

/-- SLLI (R257). -/
def execSlli (rd rs1 : Reg) (shamt : BitVec 5) (s : State) : Result :=
  opImm .sll rd rs1 (shamtOperand shamt) s

/-- SRLI (R258). -/
def execSrli (rd rs1 : Reg) (shamt : BitVec 5) (s : State) : Result :=
  opImm .srl rd rs1 (shamtOperand shamt) s

/-- SRAI (R259). -/
def execSrai (rd rs1 : Reg) (shamt : BitVec 5) (s : State) : Result :=
  opImm .sra rd rs1 (shamtOperand shamt) s

end Sys2Proof.Machine
end

