-- ==== Sys2Proof/Machine/Stores.lean ====
section
/-! DEFINITION. Stores (R220 to R223). -/

namespace Sys2Proof.Machine

/-- SB: the low byte of `x[rs2]` (R221). -/
def execSb (rs1 rs2 : Reg) (imm : Word) (s : State) : Result :=
  store 1 rs1 rs2 imm s

/-- SH: the low two bytes of `x[rs2]` (R222). -/
def execSh (rs1 rs2 : Reg) (imm : Word) (s : State) : Result :=
  store 2 rs1 rs2 imm s

/-- SW: the four bytes of `x[rs2]` (R223). -/
def execSw (rs1 rs2 : Reg) (imm : Word) (s : State) : Result :=
  store 4 rs1 rs2 imm s

end Sys2Proof.Machine
end

