-- ==== Sys2Proof/Machine/UpperImm.lean ====
section
/-! DEFINITION. Upper-immediate instructions (R160, R161). -/

namespace Sys2Proof.Machine

/-- LUI: `x[rd] <- u_imm` (R160). -/
def execLui (rd : Reg) (imm : Word) (s : State) : Result :=
  commitReg rd imm (nextPc s) s

/-- AUIPC: `x[rd] <- pc + u_imm`, `pc` the address of the AUIPC itself, modulo 2^32 (R161). -/
def execAuipc (rd : Reg) (imm : Word) (s : State) : Result :=
  commitReg rd (pcRelative s imm) (nextPc s) s

end Sys2Proof.Machine
end

