-- ==== Sys2Proof/Machine/Step.lean ====
section
/-! DEFINITION. One step (R140, R149), and placing one word where the next step fetches it. -/

namespace Sys2Proof.Machine

/-- One step: fetch, decode, execute, advance (R140, R149). In a terminated state no step is defined
(R43, R140): the outcome is a fault, and the state never changes again (log 7). -/
def step (s : State) : Host.Outcome State Fault Refusal :=
  match s.status with
  | .terminated r => .fault (.stepAfterTermination r)
  | .running =>
    match fetchDecode s with
    | .ok i => exec i s
    | .error f => raise f s

/-- `s` with the table word `w` where the next step fetches: stored little-endian at `pc`, the run going
on. Where `pc` cannot be fetched from (misaligned or out of the image), the word stands at address 0 and
`pc` is 0. It stands for the loader's work for one word (R342; log 9). -/
def State.withFetchWord (s : State) (nbits w : Nat) : State :=
  let s₀ := if fetchable s then s else s.withPc 0x00000000#32
  (s₀.withMem (s₀.mem.writeLE s₀.pc.toNat 4 (tableWord nbits w))).withStatus .running

end Sys2Proof.Machine
end

