-- ==== Sys2Proof/Safety.lean ====
section
/-! DEFINITION. What counts as a safe run, the invariant of the state, and the tables of R34: which instructions write, read
and access what. -/

namespace Sys2Proof

/-! ### What an instruction touches -/

/-- The register an instruction writes (R34). ECALL names none. -/
def Instr.dest : Instr → Option Reg
  | .lui rd _ | .auipc rd _ | .jal rd _ | .jalr rd _ _ => some rd
  | .beq _ _ _ | .bne _ _ _ | .blt _ _ _ | .bge _ _ _ | .bltu _ _ _ | .bgeu _ _ _ => none
  | .lb rd _ _ | .lh rd _ _ | .lw rd _ _ | .lbu rd _ _ | .lhu rd _ _ => some rd
  | .sb _ _ _ | .sh _ _ _ | .sw _ _ _ => none
  | .addi rd _ _ | .slti rd _ _ | .sltiu rd _ _ | .xori rd _ _ | .ori rd _ _ | .andi rd _ _ => some rd
  | .slli rd _ _ | .srli rd _ _ | .srai rd _ _ => some rd
  | .add rd _ _ | .sub rd _ _ | .sll rd _ _ | .slt rd _ _ | .sltu rd _ _
  | .xor rd _ _ | .srl rd _ _ | .sra rd _ _ | .or rd _ _ | .and rd _ _ => some rd
  | .ecall => none

/-- The registers an instruction reads (R34). ECALL names none. -/
def Instr.sources : Instr → List Reg
  | .lui _ _ | .auipc _ _ | .jal _ _ => []
  | .jalr _ rs1 _ => [rs1]
  | .beq rs1 rs2 _ | .bne rs1 rs2 _ | .blt rs1 rs2 _
  | .bge rs1 rs2 _ | .bltu rs1 rs2 _ | .bgeu rs1 rs2 _ => [rs1, rs2]
  | .lb _ rs1 _ | .lh _ rs1 _ | .lw _ rs1 _ | .lbu _ rs1 _ | .lhu _ rs1 _ => [rs1]
  | .sb rs1 rs2 _ | .sh rs1 rs2 _ | .sw rs1 rs2 _ => [rs1, rs2]
  | .addi _ rs1 _ | .slti _ rs1 _ | .sltiu _ rs1 _ | .xori _ rs1 _ | .ori _ rs1 _ | .andi _ rs1 _ => [rs1]
  | .slli _ rs1 _ | .srli _ rs1 _ | .srai _ rs1 _ => [rs1]
  | .add _ rs1 rs2 | .sub _ rs1 rs2 | .sll _ rs1 rs2 | .slt _ rs1 rs2 | .sltu _ rs1 rs2
  | .xor _ rs1 rs2 | .srl _ rs1 rs2 | .sra _ rs1 rs2 | .or _ rs1 rs2 | .and _ rs1 rs2 => [rs1, rs2]
  | .ecall => []

/-- The instruction can set the next pc to something else than the address after it (R36, R170 to R186). -/
def Instr.transfersControl : Instr → Bool
  | .jal _ _ | .jalr _ _ _ => true
  | .beq _ _ _ | .bne _ _ _ | .blt _ _ _ | .bge _ _ _ | .bltu _ _ _ | .bgeu _ _ _ => true
  | .lui _ _ | .auipc _ _ => false
  | .lb _ _ _ | .lh _ _ _ | .lw _ _ _ | .lbu _ _ _ | .lhu _ _ _ => false
  | .sb _ _ _ | .sh _ _ _ | .sw _ _ _ => false
  | .addi _ _ _ | .slti _ _ _ | .sltiu _ _ _ | .xori _ _ _ | .ori _ _ _ | .andi _ _ _ => false
  | .slli _ _ _ | .srli _ _ _ | .srai _ _ _ => false
  | .add _ _ _ | .sub _ _ _ | .sll _ _ _ | .slt _ _ _ | .sltu _ _ _
  | .xor _ _ _ | .srl _ _ _ | .sra _ _ _ | .or _ _ _ | .and _ _ _ => false
  | .ecall => false

namespace Machine

/-- Address and width of the read a load makes (R67, R200). -/
def loadAccess (i : Instr) (s : State) : Option (Word × Nat) :=
  match i with
  | .lb _ rs1 imm | .lbu _ rs1 imm => some (effectiveAddr s rs1 imm, 1)
  | .lh _ rs1 imm | .lhu _ rs1 imm => some (effectiveAddr s rs1 imm, 2)
  | .lw _ rs1 imm => some (effectiveAddr s rs1 imm, 4)
  | _ => none

/-- Address and width of the write a store makes (R67, R220). -/
def storeAccess (i : Instr) (s : State) : Option (Word × Nat) :=
  match i with
  | .sb rs1 _ imm => some (effectiveAddr s rs1 imm, 1)
  | .sh rs1 _ imm => some (effectiveAddr s rs1 imm, 2)
  | .sw rs1 _ imm => some (effectiveAddr s rs1 imm, 4)
  | _ => none

/-- Address and width of the one data access an instruction makes (R67). -/
def dataAccess (i : Instr) (s : State) : Option (Word × Nat) :=
  (loadAccess i s).or (storeAccess i s)

/-! ### The invariant -/

/-- MEM_SIZE is admitted (R12) and `mem` is the canonical form of an image of that many bytes (R42). -/
abbrev State.wf (s : State) : Prop :=
  (0 < s.memSize ∧ s.memSize ≤ Config.maxMemSize) ∧ s.mem.wf ∧ s.mem.within s.memSize

/-- The invariant: a well-formed image and an even `pc`. (That `pc` is a multiple of 4 is no invariant: a
jump may set it to an even value that is not, R170, and the next fetch faults, R142.) -/
abbrev State.Inv (s : State) : Prop := s.wf ∧ s.pc.toNat % 2 = 0

/-! ### Frames: what a statement says an instruction leaves alone, and what it writes -/

/-- Every register reads as before. -/
def RegistersKept (s t : State) : Prop := ∀ r, t.x.read r = s.x.read r

/-- Register `rd` reads as `v`, unless it is x0, and every other register reads as before. -/
def OnlyRegister (s t : State) (rd : Reg) (v : Word) : Prop :=
  ∀ r, t.x.read r = if r = rd ∧ rd ≠ 0#5 then v else s.x.read r

/-- The image has the size it had, and every byte of it reads as before. -/
def MemoryKept (s t : State) : Prop := t.memSize = s.memSize ∧ ∀ a, t.mem.read a = s.mem.read a

/-- The run goes on as it did: `status` and the handler are as before. -/
def RunKept (s t : State) : Prop := t.status = s.status ∧ t.handler = s.handler

/-- In every state the instruction completes: it writes the value to `rd` and nothing else, and advances
by 4. -/
def WritesResult (i : Instr) (rd : Reg) (value : State → Word) : Prop :=
  ∀ s, ∃ t, exec i s = .next t ∧ OnlyRegister s t rd (value s) ∧ t.pc = s.pc + 4#32 ∧
    MemoryKept s t ∧ RunKept s t

/-- In every state the branches of one kind complete: they go to `pc + imm` exactly when the two registers
stand in the relation, else to `pc + 4`, and write nothing else. -/
def BranchesWhen (kind : Reg → Reg → Word → Instr) (taken : Word → Word → Prop) : Prop :=
  ∀ rs1 rs2 imm s, ∃ t, exec (kind rs1 rs2 imm) s = .next t ∧
    (taken (s.x.read rs1) (s.x.read rs2) → t.pc = s.pc + imm) ∧
    (¬ taken (s.x.read rs1) (s.x.read rs2) → t.pc = s.pc + 4#32) ∧
    RegistersKept s t ∧ MemoryKept s t ∧ RunKept s t

/-- `t` is `s` ended by the fault `f`: everything but `status` is as it was (R148). -/
def EndedBy (f : CoreFault) (s t : State) : Prop :=
  t.status = .terminated (.fault f) ∧ t.x = s.x ∧ t.pc = s.pc ∧ t.mem = s.mem ∧
    t.memSize = s.memSize ∧ t.handler = s.handler

/-! ### Runs -/

/-- The run has ended in one of the four faults (R300). -/
def State.faulted (s : State) : Bool :=
  match s.status with
  | .terminated (.fault _) => true
  | .terminated .envExit => false
  | .running => false

/-- `t` is reached from `s` by some number of steps. -/
inductive Reaches : State → State → Prop where
  | here (s : State) : Reaches s s
  | step {s t u : State} : Reaches s t → Machine.step t = .next u → Reaches s u

/-- A safe run: no state it reaches has faulted (an ECALL may end it). -/
def SafeFrom (s : State) : Prop := ∀ t, Reaches s t → t.faulted = false

end Machine

end Sys2Proof
end

