-- ==== Sys2Proof/Certificates/Slice0/Obligations.lean ====
section
/-! DEFINITION. The statements for the provers. Each docstring names the rules of spec/ it formalises, and the decisions D<n> of
92_eei_decisions.md and log entries it rests on. -/

open Sys2Proof Sys2Proof.Machine

/-! ### Fields, immediates, decoding -/

/-- R91, R106: each field is the fixed bit slice RVVM's formula gives, and the shift amount is the low five
bits of the I immediate, bits 24 to 20 of the word. -/
def Obligations.FieldsAreFixedBitSlices : Prop :=
  ∀ w : Word,
    (opcodeOf w).toNat = w.toNat &&& 0x7F ∧
    (rdOf w).toNat = (w.toNat >>> 7) &&& 0x1F ∧
    (funct3Of w).toNat = (w.toNat >>> 12) &&& 0x7 ∧
    (rs1Of w).toNat = (w.toNat >>> 15) &&& 0x1F ∧
    (rs2Of w).toNat = (w.toNat >>> 20) &&& 0x1F ∧
    (funct7Of w).toNat = (w.toNat >>> 25) &&& 0x7F ∧
    shamtOf w = (iImm w).extractLsb' 0 5 ∧
    (shamtOf w).toNat = (w.toNat >>> 20) % 32

/-- R100 to R104: which bit of the word each bit of each immediate is, and the range of each. -/
def Obligations.ImmediatesFollowTheirLayouts : Prop :=
  ∀ w : Word,
    (∀ j < 32, (iImm w).getLsbD j = if j < 11 then w.getLsbD (20 + j) else w.getLsbD 31) ∧
    (∀ j < 32, (sImm w).getLsbD j =
      if j < 5 then w.getLsbD (7 + j) else if j < 11 then w.getLsbD (20 + j) else w.getLsbD 31) ∧
    (∀ j < 32, (bImm w).getLsbD j =
      if j = 0 then false else if j < 5 then w.getLsbD (7 + j) else if j < 11 then w.getLsbD (20 + j)
      else if j = 11 then w.getLsbD 7 else w.getLsbD 31) ∧
    (∀ j < 32, (uImm w).getLsbD j = if j < 12 then false else w.getLsbD j) ∧
    (∀ j < 32, (jImm w).getLsbD j =
      if j = 0 then false else if j < 11 then w.getLsbD (20 + j) else if j = 11 then w.getLsbD 20
      else if j < 20 then w.getLsbD j else w.getLsbD 31) ∧
    (-2048 ≤ (iImm w).toInt ∧ (iImm w).toInt ≤ 2047) ∧
    (-2048 ≤ (sImm w).toInt ∧ (sImm w).toInt ≤ 2047) ∧
    (-4096 ≤ (bImm w).toInt ∧ (bImm w).toInt ≤ 4094 ∧ (bImm w).toNat % 2 = 0) ∧
    (-2147483648 ≤ (uImm w).toInt ∧ (uImm w).toInt ≤ 2147479552 ∧ (uImm w).toInt % 4096 = 0) ∧
    (-1048576 ≤ (jImm w).toInt ∧ (jImm w).toInt ≤ 1048574 ∧ (jImm w).toNat % 2 = 0)

/-- R107, R119 (derived there): decoding the encoding of any well-formed instruction gives it back. -/
def Obligations.DecodeOfEncodeIsIdentity : Prop :=
  ∀ i : Instr, i.WellFormed → decode (encode i) = .instr i

/-- R107, R119, R150: a word that decodes is the encoding of what it decodes to, which is well-formed: no
two words mean the same instruction and no bit of a word is ignored. -/
def Obligations.EncodeOfDecodeIsIdentity : Prop :=
  ∀ (w : Word) (i : Instr), decode w = .instr i → i.WellFormed ∧ encode i = w

/-- opcode_table.json: the words that decode to a row's instruction are exactly those that agree with the
row's match on the row's mask. -/
def Obligations.DecodeAgreesWithOpcodeTable : Prop :=
  (∀ (w : Word) (i : Instr), decode w = .instr i → w &&& i.tableRow.1 = i.tableRow.2) ∧
  (∀ (w : Word) (j : Instr), w &&& j.tableRow.1 = j.tableRow.2 →
    ∃ i, decode w = .instr i ∧ i.tableRow = j.tableRow)

/-- R116: a word with none of the ten opcodes is `UnknownEncoding`, and the step that fetches it ends the run
with that fault and its opcode; words of the compressed space, 0x0F words, all zeros and all ones are such. (The
numbers of the opcodes are the spec's general knowledge, G1, G4, G5.) -/
def Obligations.UnlistedOpcodesAreUnknown : Prop :=
  (∀ w : Word,
    opcodeOf w ∉ [0x37#7, 0x17#7, 0x6F#7, 0x67#7, 0x63#7, 0x03#7, 0x23#7, 0x13#7, 0x33#7, 0x73#7] →
    decode w = .unknownEncoding ∧
    ∀ s : State, s.status = .running → fetch s = .ok w →
      ∃ t word pc, step s = .next t ∧
        t.status = .terminated (.fault (.unknownEncoding (opcodeOf w) word pc))) ∧
  (∀ w : Word, w.extractLsb' 0 2 ≠ 0b11#2 → decode w = .unknownEncoding) ∧
  (∀ w : Word, opcodeOf w = 0x0F#7 → decode w = .unknownEncoding) ∧
  (∀ w : Word, opcodeOf w ∈ [0x2F#7, 0x07#7, 0x27#7, 0x53#7, 0x0B#7, 0x2B#7, 0x5B#7, 0x7B#7, 0x00#7, 0x7F#7] →
    decode w = .unknownEncoding) ∧
  decode 0x00000000#32 = .unknownEncoding ∧ decode 0xFFFFFFFF#32 = .unknownEncoding

/-- R108 to R118 read backwards: exactly which words are the two decode faults. The codes are general
knowledge (G1 to G3), the strictness is the spec's decision (D9 to D13, D19). -/
def Obligations.DecodeFaultsAreExactly : Prop :=
  ∀ w : Word,
    (decode w = .undefinedBranchKind ↔
      opcodeOf w = 0x63#7 ∧ (funct3Of w = 0b010#3 ∨ funct3Of w = 0b011#3)) ∧
    (decode w = .unknownEncoding ↔
      opcodeOf w ∉ [0x37#7, 0x17#7, 0x6F#7, 0x67#7, 0x63#7, 0x03#7, 0x23#7, 0x13#7, 0x33#7, 0x73#7] ∨
      (opcodeOf w = 0x67#7 ∧ funct3Of w ≠ 0b000#3) ∨
      (opcodeOf w = 0x03#7 ∧ funct3Of w ∈ [0b011#3, 0b110#3, 0b111#3]) ∨
      (opcodeOf w = 0x23#7 ∧ funct3Of w ∉ [0b000#3, 0b001#3, 0b010#3]) ∨
      (opcodeOf w = 0x13#7 ∧ funct3Of w = 0b001#3 ∧ funct7Of w ≠ 0x00#7) ∨
      (opcodeOf w = 0x13#7 ∧ funct3Of w = 0b101#3 ∧ funct7Of w ≠ 0x00#7 ∧ funct7Of w ≠ 0x20#7) ∨
      (opcodeOf w = 0x33#7 ∧ funct7Of w ≠ 0x00#7 ∧ funct7Of w ≠ 0x20#7) ∨
      (opcodeOf w = 0x33#7 ∧ funct7Of w = 0x20#7 ∧ funct3Of w ≠ 0b000#3 ∧ funct3Of w ≠ 0b101#3) ∨
      (opcodeOf w = 0x73#7 ∧ w ≠ 0x00000073#32))

/-- Words written out from the encodings of the spec's examples decode to the instruction each stands for. -/
def Obligations.WrittenOutWordsDecode : Prop :=
  decode 0x123450B7#32 = .instr (.lui 1#5 0x12345000#32) ∧
  decode 0xEFDFF0EF#32 = .instr (.jal 1#5 0xFFFFFEFC#32) ∧
  decode 0x00530067#32 = .instr (.jalr 0#5 6#5 5#32) ∧
  decode 0xFE20CCE3#32 = .instr (.blt 1#5 2#5 0xFFFFFFF8#32) ∧
  decode 0xFFC0A283#32 = .instr (.lw 5#5 1#5 0xFFFFFFFC#32) ∧
  decode 0xFE20AE23#32 = .instr (.sw 1#5 2#5 0xFFFFFFFC#32) ∧
  decode 0x4040D293#32 = .instr (.srai 5#5 1#5 4#5) ∧
  decode 0x402082B3#32 = .instr (.sub 5#5 1#5 2#5) ∧
  decode 0x00000073#32 = .instr .ecall

/-! ### Registers and the start of a run -/

/-- R33: a write to x1 to x31 sets that register and no other; a write to x0 changes no state. And x0 reads as zero in
every state (the first part of R32). -/
def Obligations.RegisterWritesAreReadBack : Prop :=
  (∀ (s : State) (r : Reg) (v : Word), r ≠ 0#5 →
    (s.writeReg r v).x.read r = v ∧ ∀ q, q ≠ r → (s.writeReg r v).x.read q = s.x.read q) ∧
  (∀ (s : State) (v : Word), s.writeReg 0#5 v = s) ∧
  (∀ s : State, s.x.read 0#5 = 0x00000000#32)

/-- R46, R340 (the row of `status` is derived there): the start of a run under any parameters. An INIT_MEM in
canonical form is taken as it is; that bytes it does not list are 0x00 is the model's choice (log 3). -/
def Obligations.StartOfARun : Prop :=
  ∀ p : Params, Memory.wf p.initMem → Memory.within p.initMem p.memSize →
    (∀ r, (State.start p).x.read r = 0x00000000#32) ∧ (State.start p).pc = p.entryPc ∧
    (State.start p).mem = p.initMem ∧ (State.start p).memSize = p.memSize ∧
    (State.start p).status = .running ∧ (State.start p).handler = p.handler

/-! ### Steps, faults and the end of a run -/

/-- R141, R144, R146, R149 (D1): when the four bytes at an aligned, in-bounds `pc`, read little-endian, decode to
an instruction, the step of a running state is `exec` of it. -/
def Obligations.StepExecutesTheDecodedInstruction : Prop :=
  ∀ (s : State) (i : Instr),
    s.status = .running → s.pc.toNat % 4 = 0 → s.pc.toNat + 4 ≤ s.memSize →
    decode (s.mem.read (s.pc.toNat + 3) ++ s.mem.read (s.pc.toNat + 2) ++ s.mem.read (s.pc.toNat + 1)
      ++ s.mem.read s.pc.toNat) = .instr i →
    step s = exec i s

/-- R142: a `pc` that is not a multiple of 4 faults first, whatever the memory holds and however large it is. -/
def Obligations.MisalignedFetchComesFirst : Prop :=
  ∀ s : State, s.status = .running → s.pc.toNat % 4 ≠ 0 →
    ∃ t, step s = .next t ∧ EndedBy (.misalignedFetch s.pc) s t

/-- R143, R303 (D5): an aligned `pc` whose word leaves the image faults. -/
def Obligations.FetchOutsideTheImageFaults : Prop :=
  ∀ s : State, s.status = .running → s.pc.toNat % 4 = 0 → s.memSize < s.pc.toNat + 4 →
    ∃ t, step s = .next t ∧ EndedBy (.outOfBounds s.pc 4) s t

/-- R144, R302, R304 (D18, D19): a fetched word that is no variant ends the run with its decode fault, which
records the code, the word and the `pc`. -/
def Obligations.UndecodableWordsFault : Prop :=
  ∀ (s : State) (w : Word), s.status = .running → s.pc.toNat % 4 = 0 → s.pc.toNat + 4 ≤ s.memSize →
    w = s.mem.read (s.pc.toNat + 3) ++ s.mem.read (s.pc.toNat + 2) ++ s.mem.read (s.pc.toNat + 1)
      ++ s.mem.read s.pc.toNat →
    (decode w = .unknownEncoding →
      ∃ t, step s = .next t ∧ EndedBy (.unknownEncoding (opcodeOf w) w s.pc) s t) ∧
    (decode w = .undefinedBranchKind →
      ∃ t, step s = .next t ∧ EndedBy (.undefinedBranchKind (funct3Of w) w s.pc) s t)

/-- R43, R140, R150 (D25): a running state always has a next state, whatever word it fetches; a terminated one
never has (the outcome is the model's `stepAfterTermination`, log 7). -/
def Obligations.StepsExactlyWhileRunning : Prop :=
  ∀ s : State,
    (s.status = .running → ∃ t, step s = .next t) ∧
    (∀ r, s.status = .terminated r → step s = .fault (.stepAfterTermination r))

/-- R148, R291, R307 (D17): a step that ends the run, by a fault or by the handler, changes `status` only. -/
def Obligations.TerminationChangesOnlyStatus : Prop :=
  ∀ s t : State, step s = .next t → ∀ r, t.status = .terminated r → t = { s with status := .terminated r }

/-- R300, R306: the faults of a step and their order: fetch alignment, fetch bounds, decode, data bounds. -/
def Obligations.FaultsOfAStepInOrder : Prop :=
  ∀ (s t : State) (f : CoreFault), step s = .next t → t.status = .terminated (.fault f) →
    (s.pc.toNat % 4 ≠ 0 ∧ f = .misalignedFetch s.pc) ∨
    (s.pc.toNat % 4 = 0 ∧ s.memSize < s.pc.toNat + 4 ∧ f = .outOfBounds s.pc 4) ∨
    (s.pc.toNat % 4 = 0 ∧ s.pc.toNat + 4 ≤ s.memSize ∧ ∃ w, w = s.mem.readLE s.pc.toNat 4 ∧
      ((decode w = .unknownEncoding ∧ f = .unknownEncoding (opcodeOf w) w s.pc) ∨
       (decode w = .undefinedBranchKind ∧ f = .undefinedBranchKind (funct3Of w) w s.pc) ∨
       (∃ i a n, decode w = .instr i ∧ dataAccess i s = some (a, n) ∧ s.memSize < a.toNat + n ∧
         f = .outOfBounds a n)))

/-- R63, R66, R230, R300 (D4): an instruction faults exactly when it is a load or store whose access leaves the
image: no alignment, overflow, write to x0 or jump target faults at the instruction. -/
def Obligations.InstructionsFaultExactlyOutOfBounds : Prop :=
  ∀ (i : Instr) (s : State), s.status = .running →
    ((∃ t f, exec i s = .next t ∧ t.status = .terminated (.fault f)) ↔
      ∃ a n, dataAccess i s = some (a, n) ∧ s.memSize < a.toNat + n)

/-- R301: `MisalignedFetch` ends a step exactly when the `pc` fetched from is misaligned, records that `pc`, and
shows a misaligned jump or branch target one step after the transfer. -/
def Obligations.MisalignedFetchRecordsThePc : Prop :=
  (∀ (s : State) (p : Word), s.status = .running →
    ((∃ t, step s = .next t ∧ t.status = .terminated (.fault (.misalignedFetch p))) ↔
      s.pc.toNat % 4 ≠ 0 ∧ p = s.pc)) ∧
  (∀ (s t : State) (i : Instr), s.status = .running → i.transfersControl = true → exec i s = .next t →
    t.pc.toNat % 4 ≠ 0 → ∃ u, step t = .next u ∧ EndedBy (.misalignedFetch t.pc) t u)

/-! ### Invariants and whole-machine rules -/

/-- R12, R36, R42, R102, R104, R171: every step keeps the invariant: MEM_SIZE admitted, the image canonical and inside
its size, `pc` even. (The canonical form, the field for MEM_SIZE and the normal form of a Resume image are the model's
choices, log 3, log 1, log 6.) -/
def Obligations.StepKeepsTheInvariant : Prop :=
  ∀ s t : State, s.Inv → step s = .next t → t.Inv

/-- The invariant holds at reset, and at the start of every run whose MEM_SIZE is admitted and whose ENTRY_PC
is even (the reset values of `pc` and `mem` are the model's choice, log 2 and log 3). -/
def Obligations.InvariantHoldsAtTheStart : Prop :=
  State.reset.Inv ∧ ∀ p : Params, p.admitted → p.entryPc.toNat % 2 = 0 → (State.start p).Inv

/-- R12, R15, R18: nothing but the start of a run configures it: no step changes MEM_SIZE or the handler.
(That both are fields of the state is the model's choice, log 1 and log 4.) -/
def Obligations.StepKeepsTheParameters : Prop :=
  ∀ s t : State, step s = .next t → t.memSize = s.memSize ∧ t.handler = s.handler

/-- R12, R42, R43, R341 (D25): in every state that a run under any admitted parameters reaches, the image is canonical and
of the size it started with, the handler is the run's, and a run that has ended reaches no other state. That MEM_SIZE
and the handler are fields of the state (log 1, log 4) and that the image is a list in canonical form (log 3) are the
model's choices, and so is that a Resume image is brought into that form (log 6). -/
def Obligations.ReachedStatesAreWellFormed : Prop :=
  ∀ (p : Params) (t : State), p.admitted → Reaches (State.start p) t →
    t.wf ∧ t.memSize = p.memSize ∧ t.handler = p.handler ∧
    (t.status ≠ .running → ∀ u, Reaches t u → u = t)

/-- R36, R37, R147, R170, R171, R180: where a step leaves a running state with a `pc` that is not a multiple of 4, its
instruction transfers control and the `pc` is 2 modulo 4. -/
def Obligations.MisalignedPcComesFromATransfer : Prop :=
  ∀ s t : State, step s = .next t → t.status = .running → t.pc.toNat % 4 ≠ 0 →
    t.pc.toNat % 4 = 2 ∧ ∃ i, fetchDecode s = .ok i ∧ i.transfersControl = true

/-- R36, R292: every other instruction that does not end the run advances `pc` by 4, modulo 2^32 (D6). -/
def Obligations.OtherInstructionsAdvanceByFour : Prop :=
  ∀ (s t : State) (i : Instr), fetchDecode s = .ok i → i.transfersControl = false → step s = .next t →
    t.status = .running → t.pc.toNat = (s.pc.toNat + 4) % 2 ^ 32

/-- R34: a step changes at most the one register its instruction names as `rd`, or the handler's Resume does. -/
def Obligations.OnlyTheDestinationRegisterChanges : Prop :=
  ∀ (s t : State) (r : Reg), step s = .next t → t.x.read r ≠ s.x.read r →
    r ≠ 0#5 ∧ ∃ i, fetchDecode s = .ok i ∧
      (i.dest = some r ∨ (i = .ecall ∧ ∃ x' mem', askHandler s = .resume x' mem'))

/-- R42, R72, R73: memory changes only in the bytes a store stores to, or by the handler's Resume. -/
def Obligations.OnlyStoredBytesChange : Prop :=
  ∀ (s t : State) (a : Nat), s.mem.wf → step s = .next t → t.mem.read a ≠ s.mem.read a →
    ∃ i, fetchDecode s = .ok i ∧
      ((∃ b n, storeAccess i s = some (b, n) ∧ b.toNat ≤ a ∧ a < b.toNat + n ∧ a < s.memSize) ∨
       (i = .ecall ∧ ∃ x' mem', askHandler s = .resume x' mem'))

/-- R34, R145, R230: a register an instruction does not name as a source has no influence on it: changing that
register beforehand changes neither the next `pc`, the memory, the status nor any other register, and not
the result either where it is the destination. (ECALL shows the handler every register, R20.) -/
def Obligations.UnreadRegistersDoNotMatter : Prop :=
  ∀ (i : Instr) (s : State) (r : Reg) (v : Word), i ≠ .ecall → r ∉ i.sources →
    ∃ t t', exec i s = .next t ∧ exec i (s.writeReg r v) = .next t' ∧
      t'.pc = t.pc ∧ t'.mem = t.mem ∧ t'.memSize = t.memSize ∧ t'.status = t.status ∧ t'.handler = t.handler ∧
      (∀ q, q ≠ r → t'.x.read q = t.x.read q) ∧
      (i.dest = some r → s.status = .running → t.status = .running → t'.x.read r = t.x.read r)

/-! ### The memory image -/

/-- R42, R60, R72 (the form of the list is the model's, log 3): a byte written is read back, no other byte changes, and
writing keeps the canonical form. -/
def Obligations.ByteWritesAreReadBack : Prop :=
  ∀ (m : Memory) (a : Nat) (v : Byte), m.wf →
    (m.write a v).wf ∧ ∀ b, (m.write a v).read b = if b = a then v else m.read b

/-- R14, R42, R60 (the form is the model's, log 3): every assignment of bytes to the addresses of an image is exactly one
canonical memory, so a statement about every state is about every INIT_MEM. -/
def Obligations.EveryImageHasOneCanonicalForm : Prop :=
  (∀ (size : Nat) (image : Nat → Byte),
    ∃ m : Memory, m.wf ∧ m.within size ∧ ∀ a, a < size → m.read a = image a) ∧
  (∀ (size : Nat) (m m' : Memory), m.wf → m'.wf → m.within size → m'.within size →
    (∀ a, a < size → m.read a = m'.read a) → m = m')

/-- R61, R63, R64 (D1, D4): a checked read gives the bytes at `addr`, little-endian, or `OutOfBounds`. -/
def Obligations.CheckedReadsAreLittleEndian : Prop :=
  ∀ (s : State) (addr : Word) (n : Nat), n = 1 ∨ n = 2 ∨ n = 4 →
    (addr.toNat + n ≤ s.memSize → ∃ v, memRead s addr n = .ok v ∧ v.toNat < 2 ^ (8 * n) ∧
      ∀ k, k < n → v.extractLsb' (8 * k) 8 = s.mem.read (addr.toNat + k)) ∧
    (s.memSize < addr.toNat + n → memRead s addr n = .error (.outOfBounds addr n))

/-- R61, R63, R65 (D1, D4): a checked write sets the bytes at `addr`, little-endian, and no other byte, or is
`OutOfBounds` and gives no new image. -/
def Obligations.CheckedWritesAreLittleEndian : Prop :=
  ∀ (s : State) (addr : Word) (n : Nat) (v : Word), n = 1 ∨ n = 2 ∨ n = 4 → s.mem.wf →
    (addr.toNat + n ≤ s.memSize → ∃ mem', memWrite s addr n v = .ok mem' ∧ mem'.wf ∧
      (∀ k, k < n → mem'.read (addr.toNat + k) = v.extractLsb' (8 * k) 8) ∧
      ∀ a, (a < addr.toNat ∨ addr.toNat + n ≤ a) → mem'.read a = s.mem.read a) ∧
    (s.memSize < addr.toNat + n → memWrite s addr n v = .error (.outOfBounds addr n))

/-- R61, R68, R72 and V1.4 (D1): a load from the address a store of the same width wrote gives the stored bytes,
extended as the load extends. -/
def Obligations.LoadsReturnWhatStoresWrote : Prop :=
  ∀ p ∈ [(Instr.sb, Instr.lb, 1, fun v : Word => (v.setWidth 8).signExtend 32),
         (Instr.sb, Instr.lbu, 1, fun v : Word => (v.setWidth 8).setWidth 32),
         (Instr.sh, Instr.lh, 2, fun v : Word => (v.setWidth 16).signExtend 32),
         (Instr.sh, Instr.lhu, 2, fun v : Word => (v.setWidth 16).setWidth 32),
         (Instr.sw, Instr.lw, 4, fun v : Word => v)],
    ∀ (s : State) (rs1 rs2 : Reg) (imm : Word), s.mem.wf → (s.x.read rs1 + imm).toNat + p.2.2.1 ≤ s.memSize →
      ∃ t, exec (p.1 rs1 rs2 imm) s = .next t ∧
        ∀ (rd base : Reg) (offset : Word), t.x.read base + offset = s.x.read rs1 + imm →
          ∃ u, exec (p.2.1 rd base offset) t = .next u ∧ OnlyRegister t u rd (p.2.2.2 (s.x.read rs2))

/-- R61 (D1): in a well-formed state, a byte load at distance `k` into a stored word sees byte `k` of it, the least
significant first. (Well-formed: an image of more than 2^32 bytes is none that R12 admits.) -/
def Obligations.ByteLoadsSeeTheStoredWord : Prop :=
  ∀ (s : State) (rs1 rs2 : Reg) (imm : Word), s.wf → (s.x.read rs1 + imm).toNat + 4 ≤ s.memSize →
    ∃ t, exec (.sw rs1 rs2 imm) s = .next t ∧
      ∀ (rd base : Reg) (offset : Word) (k : Nat), k < 4 →
        t.x.read base + offset = s.x.read rs1 + imm + BitVec.ofNat 32 k →
        ∃ u v, exec (.lbu rd base offset) t = .next u ∧ OnlyRegister t u rd v ∧
          v.toNat = (s.x.read rs2).toNat / 2 ^ (8 * k) % 256

/-- R75, R346 (D1): a word stored over the next instruction is what the next step executes. -/
def Obligations.StoresAreSeenByTheNextFetch : Prop :=
  ∀ (s : State) (rs1 rs2 : Reg) (imm : Word), s.status = .running → s.mem.wf →
    s.x.read rs1 + imm = s.pc + 4#32 → (s.pc + 4#32).toNat % 4 = 0 → (s.pc + 4#32).toNat + 4 ≤ s.memSize →
    ∃ t, exec (.sw rs1 rs2 imm) s = .next t ∧ fetch t = .ok (s.x.read rs2) ∧
      ∀ i, decode (s.x.read rs2) = .instr i → step t = exec i t

/-! ### Instructions: result, frame and completion -/

/-- R160: LUI. Its words are those with opcode 0x37; it writes the U immediate, whose low 12 bits are 0. (That `pc + 4`
wraps at the top of the address space is decision D6.) -/
def Obligations.LuiWritesTheUpperImmediate : Prop :=
  (∀ w : Word, opcodeOf w = 0x37#7 → decode w = .instr (.lui (rdOf w) (uImm w))) ∧
  (∀ (rd : Reg) (imm : Word), WritesResult (.lui rd imm) rd fun _ => imm) ∧
  (∀ w : Word, (uImm w).toNat = w.toNat / 4096 * 4096)

/-- R161 (D6): AUIPC adds the U immediate to its own address, modulo 2^32. -/
def Obligations.AuipcAddsToItsOwnAddress : Prop :=
  ∀ (rd : Reg) (imm : Word),
    WritesResult (.auipc rd imm) rd fun s => BitVec.ofNat 32 (s.pc.toNat + imm.toNat)

/-- R170, R147 (D6, D7): JAL links to the address after it and goes to `pc + imm`, whatever that is. -/
def Obligations.JalLinksAndJumps : Prop :=
  ∀ (rd : Reg) (imm : Word) (s : State), ∃ t, exec (.jal rd imm) s = .next t ∧
    OnlyRegister s t rd (s.pc + 4#32) ∧ t.pc.toNat = (s.pc.toNat + imm.toNat) % 2 ^ 32 ∧
    MemoryKept s t ∧ RunKept s t

/-- R145, R171, R147 (D6, D7, D8): JALR goes to the old `x[rs1] + imm` with bit 0 cleared, also where `rd` is `rs1`. -/
def Obligations.JalrLinksAndJumps : Prop :=
  ∀ (rd rs1 : Reg) (imm : Word) (s : State), ∃ t, exec (.jalr rd rs1 imm) s = .next t ∧
    OnlyRegister s t rd (s.pc + 4#32) ∧ t.pc.toNat = (s.x.read rs1 + imm).toNat / 2 * 2 ∧
    MemoryKept s t ∧ RunKept s t

/-- R180 to R186 (D6, D7): the six branches, BEQ, BNE, BLT, BGE, BLTU, BGEU. The target is not checked. -/
def Obligations.BranchesFollowTheirComparison : Prop :=
  BranchesWhen .beq (fun a b => a = b) ∧ BranchesWhen .bne (fun a b => a ≠ b) ∧
  BranchesWhen .blt (fun a b => a.toInt < b.toInt) ∧ BranchesWhen .bge (fun a b => b.toInt ≤ a.toInt) ∧
  BranchesWhen .bltu (fun a b => a.toNat < b.toNat) ∧ BranchesWhen .bgeu (fun a b => b.toNat ≤ a.toNat)

/-- R200 to R205 (D1, D6, D8): LB, LH, LW, LBU, LHU in bounds, at any alignment: the bytes at `x[rs1] + imm`,
extended, into `rd`, and nothing else. -/
def Obligations.LoadsReadAndExtend : Prop :=
  ∀ p ∈ [(Instr.lb, 1, fun (m : Memory) a => (m.read a).signExtend 32),
         (Instr.lh, 2, fun (m : Memory) a => (m.read (a + 1) ++ m.read a).signExtend 32),
         (Instr.lw, 4, fun (m : Memory) a => m.read (a + 3) ++ m.read (a + 2) ++ m.read (a + 1) ++ m.read a),
         (Instr.lbu, 1, fun (m : Memory) a => (m.read a).setWidth 32),
         (Instr.lhu, 2, fun (m : Memory) a => (m.read (a + 1) ++ m.read a).setWidth 32)],
    ∀ (rd rs1 : Reg) (imm : Word) (s : State), (s.x.read rs1 + imm).toNat + p.2.1 ≤ s.memSize →
      ∃ t, exec (p.1 rd rs1 imm) s = .next t ∧
        OnlyRegister s t rd (p.2.2 s.mem (s.x.read rs1 + imm).toNat) ∧ t.pc = s.pc + 4#32 ∧
        MemoryKept s t ∧ RunKept s t

/-- R68: how a load forms its result from what `MemRead` gave: LB and LH reproduce the sign bit of their width in
every upper bit, LBU and LHU clear the upper bits, LW takes the 32 bits as read. -/
def Obligations.LoadExtensionIsByKind : Prop :=
  (∀ p ∈ [(Instr.lb, 1), (Instr.lh, 2)], ∀ (rd rs1 : Reg) (imm v : Word) (s : State),
    memRead s (s.x.read rs1 + imm) p.2 = .ok v →
    ∃ t r, exec (p.1 rd rs1 imm) s = .next t ∧ OnlyRegister s t rd r ∧
      ∀ j, j < 32 → r.getLsbD j = if j < 8 * p.2 then v.getLsbD j else v.getLsbD (8 * p.2 - 1)) ∧
  (∀ p ∈ [(Instr.lbu, 1), (Instr.lhu, 2)], ∀ (rd rs1 : Reg) (imm v : Word) (s : State),
    memRead s (s.x.read rs1 + imm) p.2 = .ok v →
    ∃ t r, exec (p.1 rd rs1 imm) s = .next t ∧ OnlyRegister s t rd r ∧
      ∀ j, j < 32 → r.getLsbD j = if j < 8 * p.2 then v.getLsbD j else false) ∧
  (∀ (rd rs1 : Reg) (imm v : Word) (s : State), memRead s (s.x.read rs1 + imm) 4 = .ok v →
    ∃ t, exec (.lw rd rs1 imm) s = .next t ∧ OnlyRegister s t rd v)

/-- R63, R200, R303 (D4): a load whose bytes leave the image ends the run and writes no register, also with
`rd` = x0. -/
def Obligations.LoadsOutsideTheImageFault : Prop :=
  ∀ p ∈ [(Instr.lb, 1), (Instr.lh, 2), (Instr.lw, 4), (Instr.lbu, 1), (Instr.lhu, 2)],
    ∀ (rd rs1 : Reg) (imm : Word) (s : State), s.memSize < (s.x.read rs1 + imm).toNat + p.2 →
      ∃ t, exec (p.1 rd rs1 imm) s = .next t ∧ EndedBy (.outOfBounds (s.x.read rs1 + imm) p.2) s t

/-- R220 to R223 (D1, D6): SB, SH, SW in bounds, at any alignment: the low bytes of `x[rs2]` at `x[rs1] + imm`,
little-endian, and nothing else. -/
def Obligations.StoresWriteTheLowBytes : Prop :=
  ∀ p ∈ [(Instr.sb, 1), (Instr.sh, 2), (Instr.sw, 4)],
    ∀ (rs1 rs2 : Reg) (imm : Word) (s : State), s.mem.wf → (s.x.read rs1 + imm).toNat + p.2 ≤ s.memSize →
      ∃ t, exec (p.1 rs1 rs2 imm) s = .next t ∧ RegistersKept s t ∧ t.pc = s.pc + 4#32 ∧
        t.memSize = s.memSize ∧ RunKept s t ∧
        ∀ a, t.mem.read a =
          if (s.x.read rs1 + imm).toNat ≤ a ∧ a < (s.x.read rs1 + imm).toNat + p.2 then
            (s.x.read rs2).extractLsb' (8 * (a - (s.x.read rs1 + imm).toNat)) 8
          else s.mem.read a

/-- R63, R65, R220, R303 (D4): a store whose bytes leave the image ends the run and writes no byte, not even those
inside it. -/
def Obligations.StoresOutsideTheImageFault : Prop :=
  ∀ p ∈ [(Instr.sb, 1), (Instr.sh, 2), (Instr.sw, 4)],
    ∀ (rs1 rs2 : Reg) (imm : Word) (s : State), s.memSize < (s.x.read rs1 + imm).toNat + p.2 →
      ∃ t, exec (p.1 rs1 rs2 imm) s = .next t ∧ EndedBy (.outOfBounds (s.x.read rs1 + imm) p.2) s t

/-- R250 to R253 (D6, D15): ADDI, SLTI, SLTIU. -/
def Obligations.ImmediateArithmetic : Prop :=
  ∀ (rd rs1 : Reg) (imm : Word),
    WritesResult (.addi rd rs1 imm) rd
      (fun s => BitVec.ofInt 32 ((s.x.read rs1).toInt + imm.toInt)) ∧
    WritesResult (.slti rd rs1 imm) rd
      (fun s => if (s.x.read rs1).toInt < imm.toInt then 1#32 else 0#32) ∧
    WritesResult (.sltiu rd rs1 imm) rd
      (fun s => if (s.x.read rs1).toNat < imm.toNat then 1#32 else 0#32)

/-- R254 to R256: XORI, ORI, ANDI, with the words that are theirs; XORI with −1 is NOT, a negative ORI immediate sets
bits 31 to 11, a non-negative ANDI immediate clears bits 31 to 12. (The code values are general knowledge, G1 and G2;
that `pc + 4` wraps is decision D6.) -/
def Obligations.ImmediateLogic : Prop :=
  (∀ w : Word, opcodeOf w = 0x13#7 →
    (funct3Of w = 0b100#3 → decode w = .instr (.xori (rdOf w) (rs1Of w) (iImm w))) ∧
    (funct3Of w = 0b110#3 → decode w = .instr (.ori (rdOf w) (rs1Of w) (iImm w))) ∧
    (funct3Of w = 0b111#3 → decode w = .instr (.andi (rdOf w) (rs1Of w) (iImm w)))) ∧
  (∀ (rd rs1 : Reg) (imm : Word),
    WritesResult (.xori rd rs1 imm) rd (fun s => s.x.read rs1 ^^^ imm) ∧
    WritesResult (.ori rd rs1 imm) rd (fun s => s.x.read rs1 ||| imm) ∧
    WritesResult (.andi rd rs1 imm) rd (fun s => s.x.read rs1 &&& imm)) ∧
  (∀ (rd rs1 : Reg), WritesResult (.xori rd rs1 0xFFFFFFFF#32) rd (fun s => ~~~ (s.x.read rs1))) ∧
  (∀ (rd rs1 : Reg), WritesResult (.andi rd rs1 0xFFFFFFFF#32) rd (fun s => s.x.read rs1)) ∧
  (∀ (w a : Word) (j : Nat), j < 32 →
    (w.getLsbD 31 = true → 11 ≤ j → (a ||| iImm w).getLsbD j = true) ∧
    (w.getLsbD 31 = false → 12 ≤ j → (a &&& iImm w).getLsbD j = false))

/-- R250, R257 to R259 (D10): SLLI, SRLI, SRAI shift by `shamt`, 0 to 31. -/
def Obligations.ImmediateShifts : Prop :=
  ∀ (rd rs1 : Reg) (shamt : BitVec 5),
    WritesResult (.slli rd rs1 shamt) rd
      (fun s => BitVec.ofNat 32 ((s.x.read rs1).toNat * 2 ^ shamt.toNat)) ∧
    WritesResult (.srli rd rs1 shamt) rd
      (fun s => BitVec.ofNat 32 ((s.x.read rs1).toNat / 2 ^ shamt.toNat)) ∧
    WritesResult (.srai rd rs1 shamt) rd
      (fun s => BitVec.ofInt 32 ((s.x.read rs1).toInt / 2 ^ shamt.toNat))

/-- R145, R270 to R280 (D6, D8, D14, D15): each of the ten OP instructions writes its ALU operation of the old
`x[rs1]` and `x[rs2]`, also where `rd` is a source. -/
def Obligations.RegisterArithmetic : Prop :=
  ∀ p ∈ [(Instr.add, AluOp.add), (Instr.sub, AluOp.sub), (Instr.sll, AluOp.sll), (Instr.slt, AluOp.slt),
         (Instr.sltu, AluOp.sltu), (Instr.xor, AluOp.xor), (Instr.srl, AluOp.srl), (Instr.sra, AluOp.sra),
         (Instr.or, AluOp.or), (Instr.and, AluOp.and)],
    ∀ rd rs1 rs2 : Reg,
      WritesResult (p.1 rd rs1 rs2) rd fun s => alu p.2 (s.x.read rs1) (s.x.read rs2)

/-- R233 to R235, R237 to R239: the logical operations bit by bit; the shifts by the amount `b[4:0]`, zeros
shifted in, or copies of `a[31]` for SRA. -/
def Obligations.AluLogicAndShifts : Prop :=
  ∀ a b : Word,
    (∀ j, (alu .and a b).getLsbD j = (a.getLsbD j && b.getLsbD j)) ∧
    (∀ j, (alu .or a b).getLsbD j = (a.getLsbD j || b.getLsbD j)) ∧
    (∀ j, (alu .xor a b).getLsbD j = (a.getLsbD j ^^ b.getLsbD j)) ∧
    (alu .sll a b).toNat = a.toNat * 2 ^ (b.toNat % 32) % 2 ^ 32 ∧
    (alu .srl a b).toNat = a.toNat / 2 ^ (b.toNat % 32) ∧
    (∀ j, j < 32 → (alu .sra a b).getLsbD j =
      if j + b.toNat % 32 < 32 then a.getLsbD (j + b.toNat % 32) else a.getLsbD 31)

/-- R231, R232, R236, R240, R241 (D6, D14, D15): ADD and SUB modulo 2^32, SLT and SLTU 1 or 0, and shift amounts of 32
and more taken modulo 32. -/
def Obligations.AluArithmeticAndComparison : Prop :=
  ∀ a b : Word,
    (alu .add a b).toNat = (a.toNat + b.toNat) % 2 ^ 32 ∧
    (alu .sub a b).toNat = (a.toNat + (2 ^ 32 - b.toNat)) % 2 ^ 32 ∧
    alu .slt a b = (if a.toInt < b.toInt then 1#32 else 0#32) ∧
    alu .sltu a b = (if a.toNat < b.toNat then 1#32 else 0#32) ∧
    (∀ op ∈ [AluOp.sll, AluOp.srl, AluOp.sra], alu op a b = alu op a (b &&& 31#32))

/-- R20, R290 to R294, R309 (D16, D17; the field `handler` and the form of a Resume image are the model's, log 4 and
log 6): ECALL completes whatever the handler answers, is never a fault, and does what the answer says. -/
def Obligations.EcallActsOnTheAnswer : Prop :=
  ∀ s : State, ∃ t, exec .ecall s = .next t ∧ t.memSize = s.memSize ∧ t.handler = s.handler ∧
    (∀ f, t.status = .terminated (.fault f) → t.status = s.status) ∧
    (∀ r, s.handler = .constant r → askHandler s = r) ∧
    (s.handler = .external →
      askHandler s = Config.envHandler { x := s.x, pc := s.pc, memSize := s.memSize, mem := s.mem }) ∧
    (askHandler s = .terminate →
      t.status = .terminated .envExit ∧ RegistersKept s t ∧ t.pc = s.pc ∧ t.mem = s.mem) ∧
    (∀ x' mem', askHandler s = .resume x' mem' →
      t.x = x' ∧ t.x.read 0#5 = 0#32 ∧ t.pc = s.pc + 4#32 ∧ t.status = s.status ∧
      t.mem.wf ∧ t.mem.within s.memSize ∧ (mem'.wf → mem'.within s.memSize → t.mem = mem'))

/-- The model's own loader for one word (log 9; R342 leaves loading to the host): in a state whose image holds at least
one word, the very next step runs the instruction placed. -/
def Obligations.PlacedWordRunsNext : Prop :=
  ∀ (s : State) (nbits w : Nat) (i : Instr), s.mem.wf → 4 ≤ s.memSize → decodeTableWord nbits w = some i →
    step (s.withFetchWord nbits w) = exec i (s.withFetchWord nbits w)
end

