-- ==== Sys2Proof/Laws/Encoding.lean ====
section
/-! SUPPORT. Extracting a field or an immediate from an encoded word gives back what was encoded (R107), one lemma per encoder
and field, and which values sign extension leaves alone. -/

namespace Sys2Proof

@[simp] theorem opcodeOf_encR (f7 : BitVec 7) (rs2 rs1 : Reg) (f3 : BitVec 3) (rd : Reg) (op : BitVec 7) :
    opcodeOf (encR f7 rs2 rs1 f3 rd op) = op := by
  ext i hi
  simp [opcodeOf, encR]
  try grind

@[simp] theorem rdOf_encR (f7 : BitVec 7) (rs2 rs1 : Reg) (f3 : BitVec 3) (rd : Reg) (op : BitVec 7) :
    rdOf (encR f7 rs2 rs1 f3 rd op) = rd := by
  ext i hi
  simp [rdOf, encR]
  try grind

@[simp] theorem funct3Of_encR (f7 : BitVec 7) (rs2 rs1 : Reg) (f3 : BitVec 3) (rd : Reg) (op : BitVec 7) :
    funct3Of (encR f7 rs2 rs1 f3 rd op) = f3 := by
  ext i hi
  simp [funct3Of, encR]
  try grind

@[simp] theorem rs1Of_encR (f7 : BitVec 7) (rs2 rs1 : Reg) (f3 : BitVec 3) (rd : Reg) (op : BitVec 7) :
    rs1Of (encR f7 rs2 rs1 f3 rd op) = rs1 := by
  ext i hi
  simp [rs1Of, encR]
  try grind

@[simp] theorem rs2Of_encR (f7 : BitVec 7) (rs2 rs1 : Reg) (f3 : BitVec 3) (rd : Reg) (op : BitVec 7) :
    rs2Of (encR f7 rs2 rs1 f3 rd op) = rs2 := by
  ext i hi
  simp [rs2Of, encR]
  try grind

@[simp] theorem funct7Of_encR (f7 : BitVec 7) (rs2 rs1 : Reg) (f3 : BitVec 3) (rd : Reg) (op : BitVec 7) :
    funct7Of (encR f7 rs2 rs1 f3 rd op) = f7 := by
  ext i hi
  simp [funct7Of, encR]
  try grind

@[simp] theorem shamtOf_encR (f7 : BitVec 7) (rs2 rs1 : Reg) (f3 : BitVec 3) (rd : Reg) (op : BitVec 7) :
    shamtOf (encR f7 rs2 rs1 f3 rd op) = rs2 := by
  ext i hi
  simp [shamtOf, encR]
  try grind

@[simp] theorem opcodeOf_encI (imm : Word) (rs1 : Reg) (f3 : BitVec 3) (rd : Reg) (op : BitVec 7) :
    opcodeOf (encI imm rs1 f3 rd op) = op := by
  ext i hi
  simp [opcodeOf, encI]
  try grind

@[simp] theorem rdOf_encI (imm : Word) (rs1 : Reg) (f3 : BitVec 3) (rd : Reg) (op : BitVec 7) :
    rdOf (encI imm rs1 f3 rd op) = rd := by
  ext i hi
  simp [rdOf, encI]
  try grind

@[simp] theorem funct3Of_encI (imm : Word) (rs1 : Reg) (f3 : BitVec 3) (rd : Reg) (op : BitVec 7) :
    funct3Of (encI imm rs1 f3 rd op) = f3 := by
  ext i hi
  simp [funct3Of, encI]
  try grind

@[simp] theorem rs1Of_encI (imm : Word) (rs1 : Reg) (f3 : BitVec 3) (rd : Reg) (op : BitVec 7) :
    rs1Of (encI imm rs1 f3 rd op) = rs1 := by
  ext i hi
  simp [rs1Of, encI]
  try grind

@[simp] theorem opcodeOf_encS (imm : Word) (rs2 rs1 : Reg) (f3 : BitVec 3) (op : BitVec 7) :
    opcodeOf (encS imm rs2 rs1 f3 op) = op := by
  ext i hi
  simp [opcodeOf, encS]
  try grind

@[simp] theorem funct3Of_encS (imm : Word) (rs2 rs1 : Reg) (f3 : BitVec 3) (op : BitVec 7) :
    funct3Of (encS imm rs2 rs1 f3 op) = f3 := by
  ext i hi
  simp [funct3Of, encS]
  try grind

@[simp] theorem rs1Of_encS (imm : Word) (rs2 rs1 : Reg) (f3 : BitVec 3) (op : BitVec 7) :
    rs1Of (encS imm rs2 rs1 f3 op) = rs1 := by
  ext i hi
  simp [rs1Of, encS]
  try grind

@[simp] theorem rs2Of_encS (imm : Word) (rs2 rs1 : Reg) (f3 : BitVec 3) (op : BitVec 7) :
    rs2Of (encS imm rs2 rs1 f3 op) = rs2 := by
  ext i hi
  simp [rs2Of, encS]
  try grind

@[simp] theorem opcodeOf_encB (imm : Word) (rs2 rs1 : Reg) (f3 : BitVec 3) (op : BitVec 7) :
    opcodeOf (encB imm rs2 rs1 f3 op) = op := by
  ext i hi
  simp [opcodeOf, encB]
  try grind

@[simp] theorem funct3Of_encB (imm : Word) (rs2 rs1 : Reg) (f3 : BitVec 3) (op : BitVec 7) :
    funct3Of (encB imm rs2 rs1 f3 op) = f3 := by
  ext i hi
  simp [funct3Of, encB]
  try grind

@[simp] theorem rs1Of_encB (imm : Word) (rs2 rs1 : Reg) (f3 : BitVec 3) (op : BitVec 7) :
    rs1Of (encB imm rs2 rs1 f3 op) = rs1 := by
  ext i hi
  simp [rs1Of, encB]
  try grind

@[simp] theorem rs2Of_encB (imm : Word) (rs2 rs1 : Reg) (f3 : BitVec 3) (op : BitVec 7) :
    rs2Of (encB imm rs2 rs1 f3 op) = rs2 := by
  ext i hi
  simp [rs2Of, encB]
  try grind

@[simp] theorem opcodeOf_encU (imm : Word) (rd : Reg) (op : BitVec 7) :
    opcodeOf (encU imm rd op) = op := by
  ext i hi
  simp [opcodeOf, encU]
  try grind

@[simp] theorem rdOf_encU (imm : Word) (rd : Reg) (op : BitVec 7) :
    rdOf (encU imm rd op) = rd := by
  ext i hi
  simp [rdOf, encU]
  try grind

@[simp] theorem opcodeOf_encJ (imm : Word) (rd : Reg) (op : BitVec 7) :
    opcodeOf (encJ imm rd op) = op := by
  ext i hi
  simp [opcodeOf, encJ]
  try grind

@[simp] theorem rdOf_encJ (imm : Word) (rd : Reg) (op : BitVec 7) :
    rdOf (encJ imm rd op) = rd := by
  ext i hi
  simp [rdOf, encJ]
  try grind

/-! ### Immediates -/

theorem sext12_eq {imm : Word} (h : imm12Ok imm = true) : sext 12 imm = imm := by
  rw [← BitVec.toInt_inj]
  simp only [imm12Ok, decide_eq_true_eq, sext, BitVec.toInt_signExtend] at *
  simp [BitVec.toInt_eq_toNat_bmod, Int.bmod_def] at *
  omega

theorem sext13_eq {imm : Word} (h : immBOk imm = true) : sext 13 imm = imm := by
  rw [← BitVec.toInt_inj]
  simp only [immBOk, decide_eq_true_eq, sext, BitVec.toInt_signExtend] at *
  simp [BitVec.toInt_eq_toNat_bmod, Int.bmod_def] at *
  omega

theorem sext21_eq {imm : Word} (h : immJOk imm = true) : sext 21 imm = imm := by
  rw [← BitVec.toInt_inj]
  simp only [immJOk, decide_eq_true_eq, sext, BitVec.toInt_signExtend] at *
  simp [BitVec.toInt_eq_toNat_bmod, Int.bmod_def] at *
  omega

theorem getLsbD_zero_of_even {v : Word} (h : v.toNat % 2 = 0) : v.getLsbD 0 = false := by
  simp [BitVec.getLsbD, Nat.testBit_zero, h]

@[simp] theorem iImm_encI (imm : Word) (rs1 : Reg) (f3 : BitVec 3) (rd : Reg) (op : BitVec 7) :
    iImm (encI imm rs1 f3 rd op) = sext 12 imm := by
  ext i hi
  simp [iImm, sext, encI, BitVec.getElem_signExtend]
  grind

@[simp] theorem sImm_encS (imm : Word) (rs2 rs1 : Reg) (f3 : BitVec 3) (op : BitVec 7) :
    sImm (encS imm rs2 rs1 f3 op) = sext 12 imm := by
  ext i hi
  simp [sImm, sext, encS, BitVec.getElem_signExtend]
  grind

theorem bImm_encB {imm : Word} (h : imm.toNat % 2 = 0) (rs2 rs1 : Reg) (f3 : BitVec 3) (op : BitVec 7) :
    bImm (encB imm rs2 rs1 f3 op) = sext 13 imm := by
  have := getLsbD_zero_of_even h
  ext i hi
  simp [bImm, sext, encB, BitVec.getElem_signExtend]
  grind

theorem uImm_encU {imm : Word} (h : imm.toNat % 4096 = 0) (rd : Reg) (op : BitVec 7) :
    uImm (encU imm rd op) = imm := by
  have h0 : ∀ i < 12, imm.getLsbD i = false := by
    intro i hi
    have e : (imm.toNat % 2 ^ 12).testBit i = false := by
      rw [show (2 : Nat) ^ 12 = 4096 from rfl, h, Nat.zero_testBit]
    rw [Nat.testBit_mod_two_pow] at e
    simp only [hi, decide_true, Bool.true_and] at e
    exact e
  ext i hi
  have := h0 i
  simp [uImm, encU]
  grind

theorem jImm_encJ {imm : Word} (h : imm.toNat % 2 = 0) (rd : Reg) (op : BitVec 7) :
    jImm (encJ imm rd op) = sext 21 imm := by
  have := getLsbD_zero_of_even h
  ext i hi
  simp [jImm, sext, encJ, BitVec.getElem_signExtend]
  grind

/-! ### The fixed bits -/

theorem encR_fixed (f7 : BitVec 7) (rs2 rs1 : Reg) (f3 : BitVec 3) (rd : Reg) (op : BitVec 7) :
    encR f7 rs2 rs1 f3 rd op &&& 0xFE00707F#32 = encR f7 0#5 0#5 f3 0#5 op := by
  simp only [encR]
  refine BitVec.eq_of_getLsbD_eq fun i hi => ?_
  simp only [BitVec.getLsbD_and, BitVec.getLsbD_append]
  interval_cases i <;> simp

theorem encI_fixed (imm : Word) (rs1 : Reg) (f3 : BitVec 3) (rd : Reg) (op : BitVec 7) :
    encI imm rs1 f3 rd op &&& 0x0000707F#32 = encR 0#7 0#5 0#5 f3 0#5 op := by
  simp only [encI, encR]
  refine BitVec.eq_of_getLsbD_eq fun i hi => ?_
  simp only [BitVec.getLsbD_and, BitVec.getLsbD_append]
  interval_cases i <;> simp

theorem encS_fixed (imm : Word) (rs2 rs1 : Reg) (f3 : BitVec 3) (op : BitVec 7) :
    encS imm rs2 rs1 f3 op &&& 0x0000707F#32 = encR 0#7 0#5 0#5 f3 0#5 op := by
  simp only [encS, encR]
  refine BitVec.eq_of_getLsbD_eq fun i hi => ?_
  simp only [BitVec.getLsbD_and, BitVec.getLsbD_append]
  interval_cases i <;> simp

theorem encB_fixed (imm : Word) (rs2 rs1 : Reg) (f3 : BitVec 3) (op : BitVec 7) :
    encB imm rs2 rs1 f3 op &&& 0x0000707F#32 = encR 0#7 0#5 0#5 f3 0#5 op := by
  simp only [encB, encR]
  refine BitVec.eq_of_getLsbD_eq fun i hi => ?_
  simp only [BitVec.getLsbD_and, BitVec.getLsbD_append]
  interval_cases i <;> simp

theorem encU_fixed (imm : Word) (rd : Reg) (op : BitVec 7) :
    encU imm rd op &&& 0x0000007F#32 = encR 0#7 0#5 0#5 0#3 0#5 op := by
  simp only [encU, encR]
  refine BitVec.eq_of_getLsbD_eq fun i hi => ?_
  simp only [BitVec.getLsbD_and, BitVec.getLsbD_append]
  interval_cases i <;> simp

theorem encJ_fixed (imm : Word) (rd : Reg) (op : BitVec 7) :
    encJ imm rd op &&& 0x0000007F#32 = encR 0#7 0#5 0#5 0#3 0#5 op := by
  simp only [encJ, encR]
  refine BitVec.eq_of_getLsbD_eq fun i hi => ?_
  simp only [BitVec.getLsbD_and, BitVec.getLsbD_append]
  interval_cases i <;> simp

end Sys2Proof
end

