-- ==== Sys2Proof/Laws/Memory.lean ====
section
/-! SUPPORT. The memory image: read after write, the canonical form is kept by every operation, equal contents are equal data,
and the bytes of little-endian values. -/

namespace Sys2Proof

namespace Memory

@[simp] theorem read_nil (a : Nat) : Memory.read [] a = unlisted := rfl
@[simp] theorem read_cons (b : Nat) (v : Byte) (m : Memory) (a : Nat) :
    Memory.read ((b, v) :: m) a = if a = b then v else Memory.read m a := rfl

theorem wf_cons {b : Nat} {v : Byte} {m : Memory} :
    Memory.wf ((b, v) :: m) ↔ (∀ c ∈ m, b < c.1) ∧ v ≠ unlisted ∧ Memory.wf m := by
  simp only [Memory.wf, List.pairwise_cons, List.forall_mem_cons]; tauto

theorem read_unlisted {m : Memory} {a : Nat} (h : ∀ c ∈ m, c.1 ≠ a) : m.read a = unlisted := by
  induction m with
  | nil => rfl
  | cons c m ih =>
    obtain ⟨b, v⟩ := c
    simp only [List.forall_mem_cons] at h
    simp [Ne.symm h.1, ih h.2]

theorem mem_write {m : Memory} {a : Nat} {v : Byte} {c : Host.Cell} (h : c ∈ m.write a v) :
    c ∈ m ∨ (c = (a, v) ∧ v ≠ unlisted) := by
  induction m with
  | nil => simp only [Memory.write] at h; split at h <;> simp_all
  | cons d m ih =>
    obtain ⟨b, u⟩ := d
    simp only [Memory.write] at h
    split at h
    · split at h <;> (simp_all; try tauto)
    · split at h
      · split at h <;> (simp_all; try tauto)
      · simp only [List.mem_cons] at h ⊢
        rcases h with h | h
        · simp [h]
        · rcases ih h with h | h <;> simp [h]

theorem write_wf {m : Memory} (h : m.wf) (a : Nat) (v : Byte) : (m.write a v).wf := by
  induction m with
  | nil => simp only [Memory.write]; split <;> simp_all [Memory.wf]
  | cons d m ih =>
    obtain ⟨b, u⟩ := d
    have ⟨h1, h2, h3⟩ := wf_cons.1 h
    simp only [Memory.write]
    split
    · split
      · exact h
      · refine wf_cons.2 ⟨?_, by assumption, h⟩
        simp only [List.forall_mem_cons]
        exact ⟨by assumption, fun c hc => lt_trans (by assumption) (h1 c hc)⟩
    · split
      · split
        · exact h3
        · refine wf_cons.2 ⟨?_, by assumption, h3⟩
          rename_i e _; subst e; exact h1
      · refine wf_cons.2 ⟨fun c hc => ?_, h2, ih h3⟩
        rcases mem_write hc with hc | ⟨rfl, _⟩
        · exact h1 c hc
        · simp only; omega

theorem read_write {m : Memory} (h : m.wf) (a : Nat) (v : Byte) (k : Nat) :
    (m.write a v).read k = if k = a then v else m.read k := by
  induction m with
  | nil => simp only [Memory.write]; split <;> simp_all
  | cons d m ih =>
    obtain ⟨b, u⟩ := d
    have ⟨h1, h2, h3⟩ := wf_cons.1 h
    have hb : Memory.read m b = unlisted := read_unlisted fun c hc => (h1 c hc).ne'
    simp only [Memory.write]
    split
    · have ha : Memory.read m a = unlisted := read_unlisted fun c hc => by have := h1 c hc; omega
      split <;> by_cases hk : k = a <;> simp_all
      omega
    · split
      · split <;> by_cases hk : k = a <;> simp_all
      · by_cases hk : k = b <;> simp_all
        rintro rfl; simp_all

theorem write_within {m : Memory} {n : Nat} (h : m.within n) {a : Nat} (ha : a < n) (v : Byte) :
    (m.write a v).within n := by
  intro c hc
  rcases mem_write hc with hc | ⟨rfl, _⟩
  · exact h c hc
  · exact ha

theorem eq_of_read {m m' : Memory} (h : m.wf) (h' : m'.wf) (e : ∀ a, m.read a = m'.read a) : m = m' := by
  induction m generalizing m' with
  | nil =>
    cases m' with
    | nil => rfl
    | cons d m' =>
      obtain ⟨b, u⟩ := d
      have := e b
      simp at this
      exact absurd this.symm (wf_cons.1 h').2.1
  | cons c m ih =>
    obtain ⟨a, v⟩ := c
    have ⟨h1, h2, h3⟩ := wf_cons.1 h
    cases m' with
    | nil =>
      have := e a
      simp at this
      exact absurd this h2
    | cons d m' =>
      obtain ⟨b, u⟩ := d
      have ⟨h1', h2', h3'⟩ := wf_cons.1 h'
      have la : ∀ k, k ≤ a → Memory.read m k = unlisted := fun k hk => read_unlisted fun c hc => by have := h1 c hc; omega
      have lb : ∀ k, k ≤ b → Memory.read m' k = unlisted := fun k hk => read_unlisted fun c hc => by have := h1' c hc; omega
      have ab : a = b := by
        by_contra hne
        rcases Nat.lt_or_gt_of_ne hne with hlt | hlt
        · have := e a
          simp [hne, lb a hlt.le] at this; exact h2 this
        · have := e b
          simp [Ne.symm hne, la b hlt.le] at this; exact h2' this.symm
      subst ab
      have vu : v = u := by simpa using e a
      subst vu
      congr 1
      refine ih h3 h3' fun k => ?_
      by_cases hk : k = a
      · subst hk; rw [la k le_rfl, lb k le_rfl]
      · simpa [hk] using e k

theorem read_writeLE {m : Memory} (h : m.wf) (a n : Nat) (v : Word) (k : Nat) :
    (m.writeLE a n v).read k = if a ≤ k ∧ k < a + n then v.extractLsb' (8 * (k - a)) 8 else m.read k := by
  induction n generalizing m a v with
  | zero =>
    have : ¬(a ≤ k ∧ k < a + 0) := by omega
    simp only [Memory.writeLE, this, if_false]
  | succ n ih =>
    rw [Memory.writeLE, ih (write_wf h _ _), read_write h]
    by_cases hk : k = a
    · subst hk
      have : ¬ (k + 1 ≤ k ∧ k < k + 1 + n) := by omega
      simp
      ext i hi; simp
    · by_cases hk2 : a + 1 ≤ k ∧ k < a + 1 + n
      · have : a ≤ k ∧ k < a + (n+1) := by omega
        simp only [hk2, this, and_self, if_true]
        ext i hi
        simp
        congr 1; omega
      · have : ¬ (a ≤ k ∧ k < a + (n+1)) := by omega
        simp only [hk2, this, hk, if_false]

theorem writeLE_wf {m : Memory} (h : m.wf) (a n : Nat) (v : Word) : (m.writeLE a n v).wf := by
  induction n generalizing m a v with
  | zero => exact h
  | succ n ih => exact ih (write_wf h _ _) _ _

theorem writeLE_within {m : Memory} {size : Nat} (h : m.within size) {a n : Nat} (ha : a + n ≤ size) (v : Word) :
    (m.writeLE a n v).within size := by
  induction n generalizing m a v with
  | zero => exact h
  | succ n ih => exact ih (write_within h (by omega) _) (by omega) _

theorem readLE_congr {m m' : Memory} {a n : Nat} (h : ∀ k, a ≤ k → k < a + n → m.read k = m'.read k) :
    m.readLE a n = m'.readLE a n := by
  induction n generalizing a with
  | zero => rfl
  | succ n ih =>
    simp only [Memory.readLE]
    rw [ih fun k h1 h2 => h k (by omega) (by omega), h a le_rfl (by omega)]

theorem getLsbD_readLE (m : Memory) (a n i : Nat) :
    (m.readLE a n).getLsbD i = (decide (i < 8 * n ∧ i < 32) && (m.read (a + i / 8)).getLsbD (i % 8)) := by
  induction n generalizing a i with
  | zero => simp [Memory.readLE]
  | succ n ih =>
    simp only [Memory.readLE, BitVec.getLsbD_or, BitVec.getLsbD_shiftLeft, ih, BitVec.getLsbD_setWidth]
    by_cases h8 : i < 8
    · have e : i / 8 = 0 := by omega
      have e2 : i % 8 = i := by omega
      simp [h8, e, e2]; 
      have : i < 32 := by omega
      have : i < 8 * (n+1) := by omega
      simp [*]
    · have e : (i - 8) / 8 + 1 = i / 8 := by omega
      have e2 : (i - 8) % 8 = i % 8 := by omega
      have e3 : a + 1 + (i-8)/8 = a + i / 8 := by omega
      rw [e2, e3]
      have l : (m.read a).getLsbD i = false := BitVec.getLsbD_of_ge _ _ (by omega)
      simp [h8, l]
      by_cases h32 : i < 32 <;> simp [h32]
      have : i - 8 < 8 * n ↔ i < 8 * (n+1) := by omega
      have : i - 8 < 32 := by omega
      simp [*]

theorem readLE_one (m : Memory) (a : Nat) : m.readLE a 1 = (m.read a).setWidth 32 := by
  simp [Memory.readLE]

theorem readLE_two (m : Memory) (a : Nat) : m.readLE a 2 = (m.read (a + 1) ++ m.read a).setWidth 32 := by
  ext i hi
  have := getLsbD_readLE m a 2 i
  rw [BitVec.getLsbD_eq_getElem hi] at this
  rw [this]
  simp only [BitVec.getElem_setWidth, BitVec.getLsbD_append, hi]
  grind

theorem readLE_four (m : Memory) (a : Nat) :
    m.readLE a 4 = m.read (a + 3) ++ m.read (a + 2) ++ m.read (a + 1) ++ m.read a := by
  ext i hi
  have := getLsbD_readLE m a 4 i
  rw [BitVec.getLsbD_eq_getElem hi] at this
  rw [this]
  simp only [hi]
  grind

/-! ### Images given as cells -/

theorem ofCells_foldl_wf {size : Nat} (cells : List Host.Cell) {m : Memory} (h : m.wf) :
    Memory.wf (cells.foldl (fun m c => if c.1 < size then Memory.write m c.1 c.2 else m) m) := by
  induction cells generalizing m with
  | nil => exact h
  | cons c cells ih =>
    refine ih ?_
    by_cases hc : c.1 < size <;> simp only [hc, if_true, if_false]
    · exact write_wf h _ _
    · exact h

theorem ofCells_wf (size : Nat) (cells : List Host.Cell) : (Memory.ofCells size cells).wf :=
  ofCells_foldl_wf cells (by simp [Memory.wf])

theorem ofCells_foldl_within {size : Nat} (cells : List Host.Cell) {m : Memory} (h : m.within size) :
    Memory.within (cells.foldl (fun m c => if c.1 < size then Memory.write m c.1 c.2 else m) m) size := by
  induction cells generalizing m with
  | nil => exact h
  | cons c cells ih =>
    refine ih ?_
    by_cases hc : c.1 < size <;> simp only [hc, if_true, if_false]
    · exact write_within h hc _
    · exact h

theorem ofCells_within (size : Nat) (cells : List Host.Cell) : (Memory.ofCells size cells).within size :=
  ofCells_foldl_within cells (by simp [Memory.within])

theorem read_ofCells_foldl {size : Nat} (cells : Memory) (hc : cells.wf) (hs : cells.within size)
    {m : Memory} (h : m.wf) (k : Nat) :
    Memory.read (cells.foldl (fun m c => if c.1 < size then Memory.write m c.1 c.2 else m) m) k =
      if k ∈ cells.map Prod.fst then Memory.read cells k else Memory.read m k := by
  induction cells generalizing m with
  | nil => simp
  | cons c cells ih =>
    obtain ⟨b, v⟩ := c
    have ⟨h1, h2, h3⟩ := wf_cons.1 hc
    have hb : b < size := hs (b, v) (by simp)
    have hs' : Memory.within cells size := fun c hc => hs c (by simp [hc])
    simp only [List.foldl_cons, hb, if_true]
    rw [ih h3 hs' (write_wf h _ _), read_write h]
    simp only [List.map_cons, List.mem_cons, read_cons]
    by_cases hk : k = b
    · have : k ∉ List.map Prod.fst cells := by
        intro hm
        obtain ⟨c, hc', e⟩ := List.mem_map.1 hm
        have := h1 c hc'
        omega
      simp [hk] at this ⊢
      intro x hx
      exact absurd hx (this x)
    · simp [hk]

/-- A canonical image of the right size, given as cells, is that image. -/
theorem ofCells_of_canonical {size : Nat} {cells : Memory} (hc : cells.wf) (hs : cells.within size) :
    Memory.ofCells size cells = cells := by
  refine eq_of_read (ofCells_wf _ _) hc fun k => ?_
  rw [Memory.ofCells, read_ofCells_foldl cells hc hs (by simp [Memory.wf])]
  split
  · rfl
  · rename_i hk
    exact (read_unlisted fun c hm e => hk (List.mem_map.2 ⟨c, hm, e⟩)).symm

end Memory

end Sys2Proof
end

