-- ==== Sys2Proof/Laws/PerInstr.lean ====
section
/-! SUPPORT. A fact of every instruction, one lemma per constructor: its encoded word lies in its row of
spec/opcode_table.json (mask and match). -/

namespace Sys2Proof.Laws.TableRow

/-- The encoded word agrees with its row's match on its row's mask. -/
def Statement (i : Instr) : Prop := encode i &&& i.tableRow.1 = i.tableRow.2

theorem lui (rd : Reg) (imm : Word) : Statement (.lui rd imm) :=
  (encU_fixed ..).trans rfl

theorem auipc (rd : Reg) (imm : Word) : Statement (.auipc rd imm) :=
  (encU_fixed ..).trans rfl

theorem jal (rd : Reg) (imm : Word) : Statement (.jal rd imm) :=
  (encJ_fixed ..).trans rfl

theorem jalr (rd : Reg) (rs1 : Reg) (imm : Word) : Statement (.jalr rd rs1 imm) :=
  (encI_fixed ..).trans rfl

theorem beq (rs1 : Reg) (rs2 : Reg) (imm : Word) : Statement (.beq rs1 rs2 imm) :=
  (encB_fixed ..).trans rfl

theorem bne (rs1 : Reg) (rs2 : Reg) (imm : Word) : Statement (.bne rs1 rs2 imm) :=
  (encB_fixed ..).trans rfl

theorem blt (rs1 : Reg) (rs2 : Reg) (imm : Word) : Statement (.blt rs1 rs2 imm) :=
  (encB_fixed ..).trans rfl

theorem bge (rs1 : Reg) (rs2 : Reg) (imm : Word) : Statement (.bge rs1 rs2 imm) :=
  (encB_fixed ..).trans rfl

theorem bltu (rs1 : Reg) (rs2 : Reg) (imm : Word) : Statement (.bltu rs1 rs2 imm) :=
  (encB_fixed ..).trans rfl

theorem bgeu (rs1 : Reg) (rs2 : Reg) (imm : Word) : Statement (.bgeu rs1 rs2 imm) :=
  (encB_fixed ..).trans rfl

theorem lb (rd : Reg) (rs1 : Reg) (imm : Word) : Statement (.lb rd rs1 imm) :=
  (encI_fixed ..).trans rfl

theorem lh (rd : Reg) (rs1 : Reg) (imm : Word) : Statement (.lh rd rs1 imm) :=
  (encI_fixed ..).trans rfl

theorem lw (rd : Reg) (rs1 : Reg) (imm : Word) : Statement (.lw rd rs1 imm) :=
  (encI_fixed ..).trans rfl

theorem lbu (rd : Reg) (rs1 : Reg) (imm : Word) : Statement (.lbu rd rs1 imm) :=
  (encI_fixed ..).trans rfl

theorem lhu (rd : Reg) (rs1 : Reg) (imm : Word) : Statement (.lhu rd rs1 imm) :=
  (encI_fixed ..).trans rfl

theorem sb (rs1 : Reg) (rs2 : Reg) (imm : Word) : Statement (.sb rs1 rs2 imm) :=
  (encS_fixed ..).trans rfl

theorem sh (rs1 : Reg) (rs2 : Reg) (imm : Word) : Statement (.sh rs1 rs2 imm) :=
  (encS_fixed ..).trans rfl

theorem sw (rs1 : Reg) (rs2 : Reg) (imm : Word) : Statement (.sw rs1 rs2 imm) :=
  (encS_fixed ..).trans rfl

theorem addi (rd : Reg) (rs1 : Reg) (imm : Word) : Statement (.addi rd rs1 imm) :=
  (encI_fixed ..).trans rfl

theorem slti (rd : Reg) (rs1 : Reg) (imm : Word) : Statement (.slti rd rs1 imm) :=
  (encI_fixed ..).trans rfl

theorem sltiu (rd : Reg) (rs1 : Reg) (imm : Word) : Statement (.sltiu rd rs1 imm) :=
  (encI_fixed ..).trans rfl

theorem xori (rd : Reg) (rs1 : Reg) (imm : Word) : Statement (.xori rd rs1 imm) :=
  (encI_fixed ..).trans rfl

theorem ori (rd : Reg) (rs1 : Reg) (imm : Word) : Statement (.ori rd rs1 imm) :=
  (encI_fixed ..).trans rfl

theorem andi (rd : Reg) (rs1 : Reg) (imm : Word) : Statement (.andi rd rs1 imm) :=
  (encI_fixed ..).trans rfl

theorem slli (rd : Reg) (rs1 : Reg) (shamt : BitVec 5) : Statement (.slli rd rs1 shamt) :=
  (encR_fixed ..).trans rfl

theorem srli (rd : Reg) (rs1 : Reg) (shamt : BitVec 5) : Statement (.srli rd rs1 shamt) :=
  (encR_fixed ..).trans rfl

theorem srai (rd : Reg) (rs1 : Reg) (shamt : BitVec 5) : Statement (.srai rd rs1 shamt) :=
  (encR_fixed ..).trans rfl

theorem add (rd : Reg) (rs1 : Reg) (rs2 : Reg) : Statement (.add rd rs1 rs2) :=
  (encR_fixed ..).trans rfl

theorem sub (rd : Reg) (rs1 : Reg) (rs2 : Reg) : Statement (.sub rd rs1 rs2) :=
  (encR_fixed ..).trans rfl

theorem sll (rd : Reg) (rs1 : Reg) (rs2 : Reg) : Statement (.sll rd rs1 rs2) :=
  (encR_fixed ..).trans rfl

theorem slt (rd : Reg) (rs1 : Reg) (rs2 : Reg) : Statement (.slt rd rs1 rs2) :=
  (encR_fixed ..).trans rfl

theorem sltu (rd : Reg) (rs1 : Reg) (rs2 : Reg) : Statement (.sltu rd rs1 rs2) :=
  (encR_fixed ..).trans rfl

theorem xor (rd : Reg) (rs1 : Reg) (rs2 : Reg) : Statement (.xor rd rs1 rs2) :=
  (encR_fixed ..).trans rfl

theorem srl (rd : Reg) (rs1 : Reg) (rs2 : Reg) : Statement (.srl rd rs1 rs2) :=
  (encR_fixed ..).trans rfl

theorem sra (rd : Reg) (rs1 : Reg) (rs2 : Reg) : Statement (.sra rd rs1 rs2) :=
  (encR_fixed ..).trans rfl

theorem or (rd : Reg) (rs1 : Reg) (rs2 : Reg) : Statement (.or rd rs1 rs2) :=
  (encR_fixed ..).trans rfl

theorem and (rd : Reg) (rs1 : Reg) (rs2 : Reg) : Statement (.and rd rs1 rs2) :=
  (encR_fixed ..).trans rfl

theorem ecall : Statement .ecall := show _ &&& _ = _ by decide

end Sys2Proof.Laws.TableRow
end

