-- ==== Sys2Proof/Laws/Registers.lean ====
section
/-! SUPPORT. The register file: what a read gives after a write (R32, R33). -/

namespace Sys2Proof

@[simp] theorem Regs.read_zero (x : Regs) : x.read 0#5 = 0#32 := by simp [Regs.read]
@[simp] theorem Regs.write_zero (x : Regs) (v : Word) : x.write 0#5 v = x := by simp [Regs.write]

theorem Regs.read_write (x : Regs) (r q : Reg) (v : Word) :
    (x.write r v).read q = if q = r ∧ r ≠ 0#5 then v else x.read q := by
  by_cases hr : r = 0#5
  · simp [hr]
  by_cases hq : q = 0#5
  · simp [hq, Ne.symm hr]
  have h1 : 0 < r.toNat := by simp [Nat.pos_iff_ne_zero, BitVec.toNat_eq] at *; exact hr
  have h2 : 0 < q.toNat := by simp [Nat.pos_iff_ne_zero, BitVec.toNat_eq] at *; exact hq
  by_cases e : q = r
  · subst e; simp [Regs.read, Regs.write, hr]
  · have : r.toNat - 1 ≠ q.toNat - 1 := by
      intro h; exact e (BitVec.eq_of_toNat_eq (by omega))
    simp [Regs.read, Regs.write, hr, hq, e, this]

theorem Regs.ext_read {x y : Regs} (h : ∀ r, x.read r = y.read r) : x = y := by
  refine Vector.ext fun i hi => ?_
  have := h (BitVec.ofNat 5 (i + 1))
  have e : (BitVec.ofNat 5 (i+1)).toNat = i + 1 := by simp; omega
  have n : BitVec.ofNat 5 (i+1) ≠ 0#5 := by intro hh; have := congrArg BitVec.toNat hh; simp_all
  simpa [Regs.read, n, e] using this

theorem Regs.read_replicate (r : Reg) : Regs.read (Vector.replicate 31 0#32) r = 0#32 := by
  unfold Regs.read; split <;> simp

end Sys2Proof
end

