-- ==== Sys2Proof/Laws/State.lean ====
section
/-! SUPPORT. One lemma per field and named update of State. -/

namespace Sys2Proof.Machine.State

variable (s : State)

@[simp] theorem withX_x (v : Regs) : (s.withX v).x = v := rfl
@[simp] theorem withX_pc (v : Regs) : (s.withX v).pc = s.pc := rfl
@[simp] theorem withX_mem (v : Regs) : (s.withX v).mem = s.mem := rfl
@[simp] theorem withX_memSize (v : Regs) : (s.withX v).memSize = s.memSize := rfl
@[simp] theorem withX_status (v : Regs) : (s.withX v).status = s.status := rfl
@[simp] theorem withX_handler (v : Regs) : (s.withX v).handler = s.handler := rfl

@[simp] theorem withPc_x (v : Word) : (s.withPc v).x = s.x := rfl
@[simp] theorem withPc_pc (v : Word) : (s.withPc v).pc = v := rfl
@[simp] theorem withPc_mem (v : Word) : (s.withPc v).mem = s.mem := rfl
@[simp] theorem withPc_memSize (v : Word) : (s.withPc v).memSize = s.memSize := rfl
@[simp] theorem withPc_status (v : Word) : (s.withPc v).status = s.status := rfl
@[simp] theorem withPc_handler (v : Word) : (s.withPc v).handler = s.handler := rfl

@[simp] theorem withMem_x (v : Memory) : (s.withMem v).x = s.x := rfl
@[simp] theorem withMem_pc (v : Memory) : (s.withMem v).pc = s.pc := rfl
@[simp] theorem withMem_mem (v : Memory) : (s.withMem v).mem = v := rfl
@[simp] theorem withMem_memSize (v : Memory) : (s.withMem v).memSize = s.memSize := rfl
@[simp] theorem withMem_status (v : Memory) : (s.withMem v).status = s.status := rfl
@[simp] theorem withMem_handler (v : Memory) : (s.withMem v).handler = s.handler := rfl

@[simp] theorem withStatus_x (v : Status) : (s.withStatus v).x = s.x := rfl
@[simp] theorem withStatus_pc (v : Status) : (s.withStatus v).pc = s.pc := rfl
@[simp] theorem withStatus_mem (v : Status) : (s.withStatus v).mem = s.mem := rfl
@[simp] theorem withStatus_memSize (v : Status) : (s.withStatus v).memSize = s.memSize := rfl
@[simp] theorem withStatus_status (v : Status) : (s.withStatus v).status = v := rfl
@[simp] theorem withStatus_handler (v : Status) : (s.withStatus v).handler = s.handler := rfl

@[simp] theorem writeReg_x (rd : Reg) (v : Word) : (s.writeReg rd v).x = s.x.write rd v := rfl
@[simp] theorem writeReg_pc (rd : Reg) (v : Word) : (s.writeReg rd v).pc = s.pc := rfl
@[simp] theorem writeReg_mem (rd : Reg) (v : Word) : (s.writeReg rd v).mem = s.mem := rfl
@[simp] theorem writeReg_memSize (rd : Reg) (v : Word) : (s.writeReg rd v).memSize = s.memSize := rfl
@[simp] theorem writeReg_status (rd : Reg) (v : Word) : (s.writeReg rd v).status = s.status := rfl
@[simp] theorem writeReg_handler (rd : Reg) (v : Word) : (s.writeReg rd v).handler = s.handler := rfl

end Sys2Proof.Machine.State
end

