-- ==== Sys2Proof/Laws/Step.lean ====
section
/-! SUPPORT. What each shared operation can do, said once: the spec lemmas of the memory accesses, loads, stores and branches,
and the inversion lemmas of `exec` and `step` that later proofs cite instead of unfolding them. -/

namespace Sys2Proof.Machine

/-! ### Memory accesses (R63 to R65) -/

theorem memRead_inBounds {s : State} {addr : Word} {n : Nat} (h : inBounds s addr n) :
    memRead s addr n = .ok (s.mem.readLE addr.toNat n) := if_pos h

theorem memRead_outOfBounds {s : State} {addr : Word} {n : Nat} (h : ¬ inBounds s addr n) :
    memRead s addr n = .error (.outOfBounds addr n) := if_neg h

theorem memWrite_inBounds {s : State} {addr : Word} {n : Nat} {v : Word} (h : inBounds s addr n) :
    memWrite s addr n v = .ok (s.mem.writeLE addr.toNat n v) := if_pos h

theorem memWrite_outOfBounds {s : State} {addr : Word} {n : Nat} {v : Word} (h : ¬ inBounds s addr n) :
    memWrite s addr n v = .error (.outOfBounds addr n) := if_neg h

/-! ### Loads and stores (R200, R220) -/

theorem load_inBounds {n : Nat} {signed : Bool} {rd rs1 : Reg} {imm : Word} {s : State}
    (h : inBounds s (effectiveAddr s rs1 imm) n) :
    load n signed rd rs1 imm s = .next ((s.writeReg rd
      (extendLoaded n signed (s.mem.readLE (effectiveAddr s rs1 imm).toNat n))).withPc (nextPc s)) := by
  simp [load, memRead_inBounds h, commitReg]

theorem load_outOfBounds {n : Nat} {signed : Bool} {rd rs1 : Reg} {imm : Word} {s : State}
    (h : ¬ inBounds s (effectiveAddr s rs1 imm) n) :
    load n signed rd rs1 imm s = raise (.outOfBounds (effectiveAddr s rs1 imm) n) s := by
  simp [load, memRead_outOfBounds h]

theorem store_inBounds {n : Nat} {rs1 rs2 : Reg} {imm : Word} {s : State}
    (h : inBounds s (effectiveAddr s rs1 imm) n) :
    store n rs1 rs2 imm s = .next ((s.withMem
      (s.mem.writeLE (effectiveAddr s rs1 imm).toNat n (s.x.read rs2))).withPc (nextPc s)) := by
  simp [store, memWrite_inBounds h, commitMem]

theorem store_outOfBounds {n : Nat} {rs1 rs2 : Reg} {imm : Word} {s : State}
    (h : ¬ inBounds s (effectiveAddr s rs1 imm) n) :
    store n rs1 rs2 imm s = raise (.outOfBounds (effectiveAddr s rs1 imm) n) s := by
  simp [store, memWrite_outOfBounds h]

/-! ### Everything an instruction can do -/

/-- The five things an instruction can do (R146, R147, R148, R290). -/
inductive Effect (i : Instr) (s t : State) : Prop where
  /-- a register and the next pc are written -/
  | register (rd : Reg) (v pc : Word) (hd : i.dest = some rd) (hp : i.transfersControl = false → pc = nextPc s)
      (ht : t = (s.writeReg rd v).withPc pc)
  /-- the next pc alone is written -/
  | branch (pc : Word) (hd : i.dest = none) (hc : i.transfersControl = true) (ht : t = s.withPc pc)
  /-- memory and the next pc are written -/
  | store (a : Word) (n : Nat) (v : Word) (hd : i.dest = none) (hc : i.transfersControl = false)
      (ha : storeAccess i s = some (a, n)) (hb : inBounds s a n)
      (ht : t = (s.withMem (s.mem.writeLE a.toNat n v)).withPc (nextPc s))
  /-- the data access is out of bounds: `status` alone is written -/
  | fault (a : Word) (n : Nat) (hc : i.transfersControl = false) (ha : dataAccess i s = some (a, n))
      (hb : ¬ inBounds s a n) (ht : t = s.withStatus (.terminated (.fault (.outOfBounds a n))))
  /-- the handler's answer is acted on -/
  | environment (hi : i = .ecall) (ht : t = answer (askHandler s) s)

theorem load_effect {n : Nat} {signed : Bool} {rd rs1 : Reg} {imm : Word} {s : State} {i : Instr}
    (hd : i.dest = some rd) (hc : i.transfersControl = false)
    (ha : dataAccess i s = some (effectiveAddr s rs1 imm, n)) :
    ∃ t, load n signed rd rs1 imm s = .next t ∧ Effect i s t := by
  by_cases h : inBounds s (effectiveAddr s rs1 imm) n
  · exact ⟨_, load_inBounds h, .register rd _ _ hd (fun _ => rfl) rfl⟩
  · exact ⟨_, load_outOfBounds h, .fault _ _ hc ha h rfl⟩

theorem store_effect {n : Nat} {rs1 rs2 : Reg} {imm : Word} {s : State} {i : Instr}
    (hd : i.dest = none) (hc : i.transfersControl = false)
    (ha : storeAccess i s = some (effectiveAddr s rs1 imm, n)) (hl : loadAccess i s = none) :
    ∃ t, store n rs1 rs2 imm s = .next t ∧ Effect i s t := by
  by_cases h : inBounds s (effectiveAddr s rs1 imm) n
  · exact ⟨_, store_inBounds h, .store _ _ _ hd hc ha h rfl⟩
  · exact ⟨_, store_outOfBounds h, .fault _ _ hc (by simp [dataAccess, ha, hl]) h rfl⟩

/-- Every instruction answers a next state, by one of the five effects. -/
theorem exec_effect (i : Instr) (s : State) : ∃ t, exec i s = .next t ∧ Effect i s t := by
  cases i
  case lb => exact load_effect rfl rfl rfl
  case lh => exact load_effect rfl rfl rfl
  case lw => exact load_effect rfl rfl rfl
  case lbu => exact load_effect rfl rfl rfl
  case lhu => exact load_effect rfl rfl rfl
  case sb => exact store_effect rfl rfl rfl rfl
  case sh => exact store_effect rfl rfl rfl rfl
  case sw => exact store_effect rfl rfl rfl rfl
  case ecall => exact ⟨_, rfl, .environment rfl rfl⟩
  case beq => exact ⟨_, rfl, .branch _ rfl rfl rfl⟩
  case bne => exact ⟨_, rfl, .branch _ rfl rfl rfl⟩
  case blt => exact ⟨_, rfl, .branch _ rfl rfl rfl⟩
  case bge => exact ⟨_, rfl, .branch _ rfl rfl rfl⟩
  case bltu => exact ⟨_, rfl, .branch _ rfl rfl rfl⟩
  case bgeu => exact ⟨_, rfl, .branch _ rfl rfl rfl⟩
  case jal => exact ⟨_, rfl, .register _ _ _ rfl (by simp [Instr.transfersControl]) rfl⟩
  case jalr => exact ⟨_, rfl, .register _ _ _ rfl (by simp [Instr.transfersControl]) rfl⟩
  all_goals exact ⟨_, rfl, .register _ _ _ rfl (fun _ => rfl) rfl⟩

/-- The same, from a next state that is given. -/
theorem effect_of_exec {i : Instr} {s t : State} (h : exec i s = .next t) : Effect i s t := by
  obtain ⟨t', h', e⟩ := exec_effect i s
  rw [h'] at h
  cases h
  exact e

/-! ### Everything a step can do (R149) -/

theorem step_of_terminated {s : State} {r : Reason} (h : s.status = .terminated r) :
    step s = .fault (.stepAfterTermination r) := by simp [step, h]

theorem step_of_instr {s : State} {i : Instr} (h : s.status = .running) (hf : fetchDecode s = .ok i) :
    step s = exec i s := by simp [step, h, hf]

theorem step_of_fault {s : State} {f : CoreFault} (h : s.status = .running) (hf : fetchDecode s = .error f) :
    step s = .next (s.withStatus (.terminated (.fault f))) := by simp [step, h, hf, raise]

/-- A step with a next state starts from a running state, and either faults at fetch or decode or
executes the decoded instruction. -/
theorem step_cases {s t : State} (h : step s = .next t) :
    s.status = .running ∧
    ((∃ f, fetchDecode s = .error f ∧ t = s.withStatus (.terminated (.fault f))) ∨
     (∃ i, fetchDecode s = .ok i ∧ exec i s = .next t)) := by
  cases hs : s.status with
  | terminated r => simp [step_of_terminated hs] at h
  | running =>
    refine ⟨rfl, ?_⟩
    cases hf : fetchDecode s with
    | error f =>
      rw [step_of_fault hs hf] at h
      cases h
      exact .inl ⟨f, rfl, rfl⟩
    | ok i =>
      rw [step_of_instr hs hf] at h
      exact .inr ⟨i, rfl, h⟩

/-- What fetching and decoding an instruction says of the word at `pc` (R141 to R144). -/
theorem fetchDecode_ok {s : State} {i : Instr} (h : fetchDecode s = .ok i) :
    s.pc.toNat % 4 = 0 ∧ inBounds s s.pc 4 ∧ decode (s.mem.readLE s.pc.toNat 4) = .instr i := by
  unfold fetchDecode fetch memRead at h
  grind

end Sys2Proof.Machine
end

