-- ==== Sys2Proof/Tests/Slice0.lean ====
section
/-! SUPPORT. The model's own tests: what WellFormed refuses, every constructor decoded from a word the spec writes out, the
spec's one-step vectors (95_test_vectors.md), and for every obligation with hypotheses a concrete instance that meets them.
Words and expected values are the spec's. -/

namespace Sys2Proof.Tests

open Sys2Proof.Machine

/-! ### WellFormed refuses each kind of ill-formed immediate -/

theorem test_imm12_above_range_refused : ¬ (Instr.addi 5#5 1#5 0x00000800#32).WellFormed := by decide
theorem test_imm12_below_range_refused : ¬ (Instr.sw 1#5 2#5 0xFFFFF7FF#32).WellFormed := by decide
theorem test_immB_odd_refused : ¬ (Instr.beq 1#5 2#5 0x00000009#32).WellFormed := by decide
theorem test_immB_above_range_refused : ¬ (Instr.bgeu 1#5 2#5 0x00001000#32).WellFormed := by decide
theorem test_immB_below_range_refused : ¬ (Instr.bltu 1#5 2#5 0xFFFFEFFE#32).WellFormed := by decide
theorem test_immU_low_bits_refused : ¬ (Instr.lui 1#5 0x12345001#32).WellFormed := by decide
theorem test_immJ_odd_refused : ¬ (Instr.jal 1#5 0x00000003#32).WellFormed := by decide
theorem test_immJ_above_range_refused : ¬ (Instr.jal 1#5 0x00100000#32).WellFormed := by decide
theorem test_immJ_below_range_refused : ¬ (Instr.jal 1#5 0xFFEFFFFE#32).WellFormed := by decide
theorem test_extreme_immediates_accepted :
    (Instr.lb 5#5 1#5 0xFFFFF800#32).WellFormed ∧ (Instr.beq 0#5 0#5 0x00000FFE#32).WellFormed ∧
    (Instr.jal 1#5 0xFFF00000#32).WellFormed ∧ (Instr.auipc 5#5 0xFFFFF000#32).WellFormed := by decide

/-! ### Every constructor, from a word written out in the spec (41 to 49 and 95_test_vectors.md) -/

theorem test_decode_lui : decode 0x123450B7#32 = .instr (.lui 1#5 0x12345000#32) := by decide
theorem test_decode_auipc : decode 0x00001297#32 = .instr (.auipc 5#5 0x00001000#32) := by decide
theorem test_decode_jal : decode 0xEFDFF0EF#32 = .instr (.jal 1#5 0xFFFFFEFC#32) := by decide
theorem test_decode_jalr : decode 0x00530067#32 = .instr (.jalr 0#5 6#5 0x00000005#32) := by decide
theorem test_decode_beq : decode 0x80000063#32 = .instr (.beq 0#5 0#5 0xFFFFF000#32) := by decide
theorem test_decode_bne : decode 0x00209463#32 = .instr (.bne 1#5 2#5 0x00000008#32) := by decide
theorem test_decode_blt : decode 0xFE20CCE3#32 = .instr (.blt 1#5 2#5 0xFFFFFFF8#32) := by decide
theorem test_decode_bge : decode 0x0020D463#32 = .instr (.bge 1#5 2#5 0x00000008#32) := by decide
theorem test_decode_bltu : decode 0xFE20ECE3#32 = .instr (.bltu 1#5 2#5 0xFFFFFFF8#32) := by decide
theorem test_decode_bgeu : decode 0x0020F463#32 = .instr (.bgeu 1#5 2#5 0x00000008#32) := by decide
theorem test_decode_lb : decode 0x00208283#32 = .instr (.lb 5#5 1#5 0x00000002#32) := by decide
theorem test_decode_lh : decode 0x00109283#32 = .instr (.lh 5#5 1#5 0x00000001#32) := by decide
theorem test_decode_lw : decode 0xFFC0A283#32 = .instr (.lw 5#5 1#5 0xFFFFFFFC#32) := by decide
theorem test_decode_lbu : decode 0x0010C283#32 = .instr (.lbu 5#5 1#5 0x00000001#32) := by decide
theorem test_decode_lhu : decode 0x0010D283#32 = .instr (.lhu 5#5 1#5 0x00000001#32) := by decide
theorem test_decode_sb : decode 0x00208023#32 = .instr (.sb 1#5 2#5 0x00000000#32) := by decide
theorem test_decode_sh : decode 0x002090A3#32 = .instr (.sh 1#5 2#5 0x00000001#32) := by decide
theorem test_decode_sw : decode 0xFE20AE23#32 = .instr (.sw 1#5 2#5 0xFFFFFFFC#32) := by decide
theorem test_decode_addi : decode 0x80008293#32 = .instr (.addi 5#5 1#5 0xFFFFF800#32) := by decide
theorem test_decode_slti : decode 0xFFF0A293#32 = .instr (.slti 5#5 1#5 0xFFFFFFFF#32) := by decide
theorem test_decode_sltiu : decode 0xFFF0B293#32 = .instr (.sltiu 5#5 1#5 0xFFFFFFFF#32) := by decide
theorem test_decode_xori : decode 0xFFF0C293#32 = .instr (.xori 5#5 1#5 0xFFFFFFFF#32) := by decide
theorem test_decode_ori : decode 0x4000E293#32 = .instr (.ori 5#5 1#5 0x00000400#32) := by decide
theorem test_decode_andi : decode 0x0FF0F293#32 = .instr (.andi 5#5 1#5 0x000000FF#32) := by decide
theorem test_decode_slli : decode 0x01F09293#32 = .instr (.slli 5#5 1#5 31#5) := by decide
theorem test_decode_srli : decode 0x0040D293#32 = .instr (.srli 5#5 1#5 4#5) := by decide
theorem test_decode_srai : decode 0x4040D293#32 = .instr (.srai 5#5 1#5 4#5) := by decide
theorem test_decode_add : decode 0x002082B3#32 = .instr (.add 5#5 1#5 2#5) := by decide
theorem test_decode_sub : decode 0x402082B3#32 = .instr (.sub 5#5 1#5 2#5) := by decide
theorem test_decode_sll : decode 0x002092B3#32 = .instr (.sll 5#5 1#5 2#5) := by decide
theorem test_decode_slt : decode 0x0020A2B3#32 = .instr (.slt 5#5 1#5 2#5) := by decide
theorem test_decode_sltu : decode 0x0020B2B3#32 = .instr (.sltu 5#5 1#5 2#5) := by decide
theorem test_decode_xor : decode 0x0020C2B3#32 = .instr (.xor 5#5 1#5 2#5) := by decide
theorem test_decode_srl : decode 0x0020D2B3#32 = .instr (.srl 5#5 1#5 2#5) := by decide
theorem test_decode_sra : decode 0x4020D2B3#32 = .instr (.sra 5#5 1#5 2#5) := by decide
theorem test_decode_or : decode 0x0020E2B3#32 = .instr (.or 5#5 1#5 2#5) := by decide
theorem test_decode_and : decode 0x0020F2B3#32 = .instr (.and 5#5 1#5 2#5) := by decide
theorem test_decode_ecall : decode 0x00000073#32 = .instr .ecall := by decide

theorem test_not_variants_are_unknown :
    decode 0x0FF0000F#32 = .unknownEncoding ∧ decode 0x00100073#32 = .unknownEncoding ∧
    decode 0x30200073#32 = .unknownEncoding ∧ decode 0x00001067#32 = .unknownEncoding ∧
    decode 0x0000B283#32 = .unknownEncoding ∧ decode 0x0020B023#32 = .unknownEncoding ∧
    decode 0x40409293#32 = .unknownEncoding ∧ decode 0x6040D293#32 = .unknownEncoding := by decide
theorem test_op_with_other_funct7_is_unknown :
    decode 0x022082B3#32 = .unknownEncoding ∧ decode 0x402092B3#32 = .unknownEncoding ∧
    decode 0x4020F2B3#32 = .unknownEncoding ∧ decode 0x802082B3#32 = .unknownEncoding := by decide
theorem test_undefined_branch_kinds :
    decode 0x0020A463#32 = .undefinedBranchKind ∧ decode 0x0020B463#32 = .undefinedBranchKind := by decide
/-- The field and immediate extremes of 95_test_vectors.md section 2. -/
theorem test_immediate_extremes :
    sImm 0x80000023#32 = 0xFFFFF800#32 ∧ sImm 0x7E000FA3#32 = 0x000007FF#32 ∧
    bImm 0x7E000FE3#32 = 0x00000FFE#32 ∧ jImm 0x7FFFF0EF#32 = 0x000FFFFE#32 ∧
    jImm 0x800000EF#32 = 0xFFF00000#32 ∧ uImm 0xAAAAADB7#32 = 0xAAAAA000#32 := by decide

/-! ### One step each (95_test_vectors.md sections 4 and 5) -/

/-- The vectors' start: the reference parameters and handler (R294), the word at `pc`, the listed registers. -/
def placed (pc : Word) (word : Nat) (regs : List (Reg × Word)) (mem : Memory) : State :=
  (regs.foldl (fun (s : State) r => s.writeReg r.1 r.2)
    { State.reset with pc := pc, mem := mem, handler := .constant .terminate }).withFetchWord 32 word

/-- The next state, if there is one. -/
def after (s : State) : Option State :=
  match step s with
  | .next t => some t
  | .fault _ => none
  | .refused _ => none

/-- The vectors' bytes at 0x200. -/
def bytes : Memory := [(0x200, 0x80#8), (0x201, 0xFF#8), (0x202, 0x34#8), (0x203, 0x12#8)]

/-- Register `r`, `pc` and `status` after one step. -/
def seen (r : Reg) (s : State) : Option (Word × Word × Status) :=
  (after s).map fun t => (t.x.read r, t.pc, t.status)

/-- The four bytes at `a`, the lowest address first, and `status` after one step. -/
def stored (a : Nat) (s : State) : Option (List Byte × Status) :=
  (after s).map fun t => ([t.mem.read a, t.mem.read (a + 1), t.mem.read (a + 2), t.mem.read (a + 3)], t.status)

theorem test_lui_sets_bit_31 :
    seen 5#5 (placed 0x00000100#32 0xFFFFF2B7 [] []) =
      some (0xFFFFF000#32, 0x00000104#32, .running) := by decide
theorem test_auipc_adds_own_address :
    seen 5#5 (placed 0x00000100#32 0xFFFFF297 [] []) =
      some (0xFFFFF100#32, 0x00000104#32, .running) := by decide
theorem test_jal_target_wraps :
    seen 1#5 (placed 0x00000100#32 0xEFDFF0EF [] []) =
      some (0x00000104#32, 0xFFFFFFFC#32, .running) := by decide
theorem test_jal_misaligned_target_links :
    seen 1#5 (placed 0x00000100#32 0x002000EF [] []) =
      some (0x00000104#32, 0x00000102#32, .running) := by decide
theorem test_jalr_uses_old_source :
    seen 1#5 (placed 0x00000100#32 0x000080E7 [(1#5, 0x00000200#32)] []) =
      some (0x00000104#32, 0x00000200#32, .running) := by decide
theorem test_jalr_clears_bit_0 :
    seen 0#5 (placed 0x00000100#32 0x00530067 [(6#5, 0x00000200#32)] []) =
      some (0x00000000#32, 0x00000204#32, .running) := by decide
theorem test_beq_equal :
    seen 1#5 (placed 0x00000064#32 0x00208463 [(1#5, 0x00000007#32), (2#5, 0x00000007#32)] []) =
      some (0x00000007#32, 0x0000006C#32, .running) := by decide
theorem test_beq_unequal :
    seen 1#5 (placed 0x00000100#32 0x00208463 [(1#5, 0xFFFFFFFF#32), (2#5, 0x00000001#32)] []) =
      some (0xFFFFFFFF#32, 0x00000104#32, .running) := by decide
theorem test_bne_equal :
    seen 1#5 (placed 0x00000064#32 0x00209463 [(1#5, 0x00000007#32), (2#5, 0x00000007#32)] []) =
      some (0x00000007#32, 0x00000068#32, .running) := by decide
theorem test_bne_unequal :
    seen 1#5 (placed 0x00000100#32 0x00209463 [(1#5, 0xFFFFFFFF#32), (2#5, 0x00000001#32)] []) =
      some (0xFFFFFFFF#32, 0x00000108#32, .running) := by decide
theorem test_blt_signed_backwards :
    seen 1#5 (placed 0x00000100#32 0xFE20CCE3 [(1#5, 0x80000000#32), (2#5, 0x7FFFFFFF#32)] []) =
      some (0x80000000#32, 0x000000F8#32, .running) := by decide
theorem test_blt_equal :
    seen 1#5 (placed 0x00000100#32 0x0020C463 [(1#5, 0x00000005#32), (2#5, 0x00000005#32)] []) =
      some (0x00000005#32, 0x00000104#32, .running) := by decide
theorem test_bge_equal :
    seen 1#5 (placed 0x00000100#32 0x0020D463 [(1#5, 0x00000005#32), (2#5, 0x00000005#32)] []) =
      some (0x00000005#32, 0x00000108#32, .running) := by decide
theorem test_bge_signed :
    seen 1#5 (placed 0x00000100#32 0x0020D463 [(1#5, 0xFFFFFFFF#32), (2#5, 0x00000001#32)] []) =
      some (0xFFFFFFFF#32, 0x00000104#32, .running) := by decide
theorem test_bltu_unsigned :
    seen 1#5 (placed 0x00000100#32 0xFE20ECE3 [(1#5, 0x80000000#32), (2#5, 0x7FFFFFFF#32)] []) =
      some (0x80000000#32, 0x00000104#32, .running) := by decide
theorem test_bltu_equal :
    seen 1#5 (placed 0x00000100#32 0x0020E463 [(1#5, 0x00000005#32), (2#5, 0x00000005#32)] []) =
      some (0x00000005#32, 0x00000104#32, .running) := by decide
theorem test_bgeu_equal :
    seen 1#5 (placed 0x00000100#32 0x0020F463 [(1#5, 0x00000005#32), (2#5, 0x00000005#32)] []) =
      some (0x00000005#32, 0x00000108#32, .running) := by decide
theorem test_bgeu_unsigned :
    seen 1#5 (placed 0x00000100#32 0x0020F463 [(1#5, 0xFFFFFFFF#32), (2#5, 0x00000001#32)] []) =
      some (0xFFFFFFFF#32, 0x00000108#32, .running) := by decide
theorem test_lb_extends_sign :
    seen 5#5 (placed 0x00000100#32 0x00008283 [(1#5, 0x00000200#32)] bytes) =
      some (0xFFFFFF80#32, 0x00000104#32, .running) := by decide
theorem test_lb_to_x0_still_faults :
    seen 1#5 (placed 0x00000100#32 0x00008003 [(1#5, 0x00040000#32)] []) =
      some (0x00040000#32, 0x00000100#32, .terminated (.fault (.outOfBounds 0x00040000#32 1))) := by decide
theorem test_lh_odd_address :
    seen 5#5 (placed 0x00000100#32 0x00109283 [(1#5, 0x00000200#32)] bytes) =
      some (0x000034FF#32, 0x00000104#32, .running) := by decide
theorem test_lh_extends_sign :
    seen 5#5 (placed 0x00000100#32 0x00009283 [(1#5, 0x00000200#32)] bytes) =
      some (0xFFFFFF80#32, 0x00000104#32, .running) := by decide
theorem test_lw_negative_offset :
    seen 5#5 (placed 0x00000100#32 0xFFC0A283 [(1#5, 0x00000204#32)] bytes) =
      some (0x1234FF80#32, 0x00000104#32, .running) := by decide
theorem test_lw_no_wrap_in_bounds_check :
    seen 5#5 (placed 0x00000100#32 0x0000A283 [(1#5, 0xFFFFFFFE#32)] []) =
      some (0x00000000#32, 0x00000100#32, .terminated (.fault (.outOfBounds 0xFFFFFFFE#32 4))) := by decide
theorem test_lbu_clears_upper_bits :
    seen 5#5 (placed 0x00000100#32 0x0000C283 [(1#5, 0x00000200#32)] bytes) =
      some (0x00000080#32, 0x00000104#32, .running) := by decide
theorem test_lbu_address_wraps :
    seen 5#5 (placed 0x00000100#32 0x0010C283 [(1#5, 0xFFFFFFFF#32)] []) =
      some (0x00000000#32, 0x00000104#32, .running) := by decide
theorem test_lhu_clears_upper_bits :
    seen 5#5 (placed 0x00000100#32 0x0000D283 [(1#5, 0x00000200#32)] bytes) =
      some (0x0000FF80#32, 0x00000104#32, .running) := by decide
theorem test_lhu_past_last_byte :
    seen 5#5 (placed 0x00000100#32 0x0000D283 [(1#5, 0x0003FFFF#32)] []) =
      some (0x00000000#32, 0x00000100#32, .terminated (.fault (.outOfBounds 0x0003FFFF#32 2))) := by decide
theorem test_sb_stores_low_byte :
    stored 0x200 (placed 0x00000100#32 0x00208023 [(1#5, 0x00000200#32), (2#5, 0x89ABCDEF#32)] bytes) =
      some ([0xEF#8, 0xFF#8, 0x34#8, 0x12#8], .running) := by decide
theorem test_sb_zero_over_a_byte :
    stored 0x200 (placed 0x00000100#32 0x00008023 [(1#5, 0x00000200#32), (2#5, 0x89ABCDEF#32)] bytes) =
      some ([0x00#8, 0xFF#8, 0x34#8, 0x12#8], .running) := by decide
theorem test_sh_odd_address :
    stored 0x200 (placed 0x00000100#32 0x002090A3 [(1#5, 0x00000200#32), (2#5, 0x89ABCDEF#32)] bytes) =
      some ([0x80#8, 0xEF#8, 0xCD#8, 0x12#8], .running) := by decide
theorem test_sh_past_last_byte :
    stored 0x3FFFC (placed 0x00000100#32 0x00209023 [(1#5, 0x0003FFFF#32), (2#5, 0x89ABCDEF#32)] []) =
      some ([0x00#8, 0x00#8, 0x00#8, 0x00#8], .terminated (.fault (.outOfBounds 0x0003FFFF#32 2))) := by decide
theorem test_sw_negative_offset :
    stored 0x1FC (placed 0x00000100#32 0xFE20AE23 [(1#5, 0x00000200#32), (2#5, 0x89ABCDEF#32)] []) =
      some ([0xEF#8, 0xCD#8, 0xAB#8, 0x89#8], .running) := by decide
theorem test_sw_faulting_stores_no_byte :
    stored 0x3FFFC (placed 0x00000100#32 0x0020A023 [(1#5, 0x0003FFFD#32), (2#5, 0x89ABCDEF#32)] []) =
      some ([0x00#8, 0x00#8, 0x00#8, 0x00#8], .terminated (.fault (.outOfBounds 0x0003FFFD#32 4))) := by decide
theorem test_addi_signed_overflow :
    seen 5#5 (placed 0x00000100#32 0x00108293 [(1#5, 0x7FFFFFFF#32)] []) =
      some (0x80000000#32, 0x00000104#32, .running) := by decide
theorem test_addi_x0_discards :
    seen 0#5 (placed 0x00000100#32 0x00508013 [(1#5, 0x00000001#32)] []) =
      some (0x00000000#32, 0x00000104#32, .running) := by decide
theorem test_slti_signed :
    seen 5#5 (placed 0x00000100#32 0x0000A293 [(1#5, 0x80000000#32)] []) =
      some (0x00000001#32, 0x00000104#32, .running) := by decide
theorem test_slti_equal :
    seen 5#5 (placed 0x00000100#32 0xFFF0A293 [(1#5, 0xFFFFFFFF#32)] []) =
      some (0x00000000#32, 0x00000104#32, .running) := by decide
theorem test_sltiu_extends_then_unsigned :
    seen 5#5 (placed 0x00000100#32 0xFFF0B293 [(1#5, 0x00000005#32)] []) =
      some (0x00000001#32, 0x00000104#32, .running) := by decide
theorem test_sltiu_seqz :
    seen 5#5 (placed 0x00000100#32 0x0010B293 [(1#5, 0x00000007#32)] []) =
      some (0x00000000#32, 0x00000104#32, .running) := by decide
theorem test_xori_not :
    seen 5#5 (placed 0x00000100#32 0xFFF0C293 [(1#5, 0x12345678#32)] []) =
      some (0xEDCBA987#32, 0x00000104#32, .running) := by decide
theorem test_ori_negative :
    seen 5#5 (placed 0x00000100#32 0x8000E293 [(1#5, 0x00000000#32)] []) =
      some (0xFFFFF800#32, 0x00000104#32, .running) := by decide
theorem test_andi_mask :
    seen 5#5 (placed 0x00000100#32 0x0FF0F293 [(1#5, 0x12345678#32)] []) =
      some (0x00000078#32, 0x00000104#32, .running) := by decide
theorem test_slli_by_31 :
    seen 5#5 (placed 0x00000100#32 0x01F09293 [(1#5, 0x00000003#32)] []) =
      some (0x80000000#32, 0x00000104#32, .running) := by decide
theorem test_slli_by_4 :
    seen 5#5 (placed 0x00000100#32 0x00409293 [(1#5, 0x12345678#32)] []) =
      some (0x23456780#32, 0x00000104#32, .running) := by decide
theorem test_srli_zeros_in :
    seen 5#5 (placed 0x00000100#32 0x0040D293 [(1#5, 0xF0000000#32)] []) =
      some (0x0F000000#32, 0x00000104#32, .running) := by decide
theorem test_srai_sign_in :
    seen 5#5 (placed 0x00000100#32 0x4040D293 [(1#5, 0xF0000000#32)] []) =
      some (0xFF000000#32, 0x00000104#32, .running) := by decide
theorem test_srai_positive :
    seen 5#5 (placed 0x00000100#32 0x41F0D293 [(1#5, 0x7FFFFFFF#32)] []) =
      some (0x00000000#32, 0x00000104#32, .running) := by decide
theorem test_add_wraps :
    seen 5#5 (placed 0x00000100#32 0x002082B3 [(1#5, 0xFFFFFFFF#32), (2#5, 0x00000001#32)] []) =
      some (0x00000000#32, 0x00000104#32, .running) := by decide
theorem test_add_rd_is_both_sources :
    seen 1#5 (placed 0x00000100#32 0x001080B3 [(1#5, 0x40000000#32)] []) =
      some (0x80000000#32, 0x00000104#32, .running) := by decide
theorem test_sub_wraps :
    seen 5#5 (placed 0x00000100#32 0x402082B3 [(1#5, 0x80000000#32), (2#5, 0x00000001#32)] []) =
      some (0x7FFFFFFF#32, 0x00000104#32, .running) := by decide
theorem test_sub_order :
    seen 5#5 (placed 0x00000100#32 0x402082B3 [(1#5, 0x00000000#32), (2#5, 0x00000001#32)] []) =
      some (0xFFFFFFFF#32, 0x00000104#32, .running) := by decide
theorem test_sll_amount_32_is_0 :
    seen 5#5 (placed 0x00000100#32 0x002092B3 [(1#5, 0x00000001#32), (2#5, 0x00000020#32)] []) =
      some (0x00000001#32, 0x00000104#32, .running) := by decide
theorem test_sll_amount_31 :
    seen 5#5 (placed 0x00000100#32 0x002092B3 [(1#5, 0x00000001#32), (2#5, 0xFFFFFFFF#32)] []) =
      some (0x80000000#32, 0x00000104#32, .running) := by decide
theorem test_slt_signed :
    seen 5#5 (placed 0x00000100#32 0x0020A2B3 [(1#5, 0x80000000#32), (2#5, 0x7FFFFFFF#32)] []) =
      some (0x00000001#32, 0x00000104#32, .running) := by decide
theorem test_slt_order :
    seen 5#5 (placed 0x00000100#32 0x0020A2B3 [(1#5, 0x7FFFFFFF#32), (2#5, 0x80000000#32)] []) =
      some (0x00000000#32, 0x00000104#32, .running) := by decide
theorem test_sltu_unsigned :
    seen 5#5 (placed 0x00000100#32 0x0020B2B3 [(1#5, 0x80000000#32), (2#5, 0x7FFFFFFF#32)] []) =
      some (0x00000000#32, 0x00000104#32, .running) := by decide
theorem test_sltu_order :
    seen 5#5 (placed 0x00000100#32 0x0020B2B3 [(1#5, 0x00000000#32), (2#5, 0x00000001#32)] []) =
      some (0x00000001#32, 0x00000104#32, .running) := by decide
theorem test_xor_bits :
    seen 5#5 (placed 0x00000100#32 0x0020C2B3 [(1#5, 0xFFFFFFFF#32), (2#5, 0x12345678#32)] []) =
      some (0xEDCBA987#32, 0x00000104#32, .running) := by decide
theorem test_srl_amount_33_is_1 :
    seen 5#5 (placed 0x00000100#32 0x0020D2B3 [(1#5, 0x80000000#32), (2#5, 0x00000021#32)] []) =
      some (0x40000000#32, 0x00000104#32, .running) := by decide
theorem test_sra_sign_in :
    seen 5#5 (placed 0x00000100#32 0x4020D2B3 [(1#5, 0x80000000#32), (2#5, 0x00000004#32)] []) =
      some (0xF8000000#32, 0x00000104#32, .running) := by decide
theorem test_sra_amount_31 :
    seen 5#5 (placed 0x00000100#32 0x4020D2B3 [(1#5, 0x80000000#32), (2#5, 0xFFFFFFFF#32)] []) =
      some (0xFFFFFFFF#32, 0x00000104#32, .running) := by decide
theorem test_or_bits :
    seen 5#5 (placed 0x00000100#32 0x0020E2B3 [(1#5, 0xF0F0F0F0#32), (2#5, 0x0F0F0F0F#32)] []) =
      some (0xFFFFFFFF#32, 0x00000104#32, .running) := by decide
theorem test_and_bits :
    seen 5#5 (placed 0x00000100#32 0x0020F2B3 [(1#5, 0xF0F0F0F0#32), (2#5, 0xFF00FF00#32)] []) =
      some (0xF000F000#32, 0x00000104#32, .running) := by decide
theorem test_ecall_terminates :
    seen 17#5 (placed 0x00000008#32 0x00000073 [(10#5, 0x00000001#32), (17#5, 0x0000005D#32)] []) =
      some (0x0000005D#32, 0x00000008#32, .terminated .envExit) := by decide
/-- An ECALL answered Resume with x10 = 0x2A (95_test_vectors.md section 5.8). -/
theorem test_ecall_resumes :
    seen 10#5 { placed 0x00000008#32 0x00000073 [(10#5, 0x00000001#32)] [] with
      handler := .constant (.resume (Regs.write State.reset.x 10#5 0x0000002A#32) []) } =
      some (0x0000002A#32, 0x0000000C#32, .running) := by decide

/-! ### Faults and their priority, reset, the host's two entry points -/

theorem test_fetch_alignment_before_bounds :
    (after { State.reset with pc := 0x00040002#32 }).map State.status =
      some (.terminated (.fault (.misalignedFetch 0x00040002#32))) := by decide
theorem test_fetch_at_the_top_does_not_wrap :
    (after { State.reset with pc := 0xFFFFFFFC#32 }).map State.status =
      some (.terminated (.fault (.outOfBounds 0xFFFFFFFC#32 4))) := by decide
theorem test_last_word_is_fetched :
    (after (placed 0x0003FFFC#32 0xFFFFFFFF [] [])).map State.status =
      some (.terminated (.fault (.unknownEncoding 0x7F#7 0xFFFFFFFF#32 0x0003FFFC#32))) := by decide
theorem test_decode_before_data_bounds :
    (after (placed 0x00000100#32 0x0000B283 [(1#5, 0x00040000#32)] [])).map State.status =
      some (.terminated (.fault (.unknownEncoding 0x03#7 0x0000B283#32 0x00000100#32))) := by decide
theorem test_branch_kind_before_target :
    (after (placed 0x00000100#32 0x0020A163 [] [])).map State.status =
      some (.terminated (.fault (.undefinedBranchKind 0b010#3 0x0020A163#32 0x00000100#32))) := by decide
theorem test_reset_with_nothing_placed :
    (after State.reset).map State.status =
      some (.terminated (.fault (.unknownEncoding 0x00#7 0x00000000#32 0x00000000#32))) := by decide
theorem test_no_step_after_termination :
    step (State.reset.withStatus (.terminated .envExit)) = .fault (.stepAfterTermination .envExit) := rfl
theorem test_reset_is_a_start :
    State.start ⟨Config.referenceMemSize, [], Config.referenceEntryPc, .external⟩ = State.reset := by decide
theorem test_reset_memory_is_canonical : State.reset.mem.wf := by decide
theorem test_reset_inv : State.reset.Inv := by decide
theorem test_decodeTableWord : decodeTableWord 32 0x003100B3 = some (.add 1#5 2#5 3#5) := by decide
theorem test_reset_runs_a_placed_word :
    (after (State.reset.withFetchWord 32 0x12345537)).map (fun t => t.x.read 10#5) = some 0x12345000#32 := by
  decide
theorem test_placed_word_where_pc_cannot_be_fetched :
    (after ({ State.reset with pc := 0xFFFFFFFC#32 }.withFetchWord 32 0x12345537)).map (fun t => (t.x.read 10#5, t.pc)) =
      some (0x12345000#32, 0x00000004#32) := by decide

/-! ### Each obligation's hypotheses are met: one concrete instance per clause, at the ends of its range -/

/-- `addi x5, x1, 1` in the last word of the image. -/
def addiAtTheEnd : State := placed 0x0003FFFC#32 0x00108293 [(1#5, 0x00000007#32)] []
/-- `jal x1, +2`: the next pc is misaligned. -/
def jalMisaligned : State := placed 0x00000100#32 0x002000EF [] []
/-- `lw x5, 0(x1)` and `sw x2, 0(x1)` at the last word of the image, and one byte further. -/
def lwLastWord : State := placed 0x00000100#32 0x0000A283 [(1#5, 0x0003FFFC#32)] []
def lwPastTheEnd : State := placed 0x00000100#32 0x0000A283 [(1#5, 0x0003FFFD#32)] []
def swLastWord : State := placed 0x00000100#32 0x0020A023 [(1#5, 0x0003FFFC#32), (2#5, 0x89ABCDEF#32)] []
/-- `ecall`, answered with Terminate, and with Resume. -/
def ecallTerminated : State := placed 0x00000008#32 0x00000073 [] []
def ecallResumed : State :=
  { ecallTerminated with handler := .constant (.resume (Regs.write State.reset.x 10#5 0x0000002A#32) bytes) }

theorem test_witness_DecodeOfEncodeIsIdentity :
    (Instr.sw 1#5 2#5 0xFFFFF800#32).WellFormed ∧ (Instr.jal 1#5 0x000FFFFE#32).WellFormed := by decide
theorem test_witness_EncodeOfDecodeIsIdentity : decode 0xFE20AE23#32 = .instr (.sw 1#5 2#5 0xFFFFFFFC#32) := by decide
theorem test_witness_DecodeAgreesWithOpcodeTable :
    decode 0x4040D293#32 = .instr (.srai 5#5 1#5 4#5) ∧
    0x41F0D293#32 &&& (Instr.srai 0#5 0#5 0#5).tableRow.1 = (Instr.srai 0#5 0#5 0#5).tableRow.2 := by decide
theorem test_witness_UnlistedOpcodesAreUnknown :
    opcodeOf 0x0000000F#32 ∉ [0x37#7, 0x17#7, 0x6F#7, 0x67#7, 0x63#7, 0x03#7, 0x23#7, 0x13#7, 0x33#7, 0x73#7] ∧
    (placed 0x0003FFFC#32 0x0000000F [] []).status = .running ∧
    (0x00004501#32).extractLsb' 0 2 ≠ 0b11#2 ∧ opcodeOf 0xFFFFFF8F#32 = 0x0F#7 ∧
    opcodeOf 0x0000002F#32 ∈ [0x2F#7, 0x07#7, 0x27#7, 0x53#7, 0x0B#7, 0x2B#7, 0x5B#7, 0x7B#7, 0x00#7, 0x7F#7] ∧
    fetch (placed 0x0003FFFC#32 0x0000000F [] []) = .ok 0x0000000F#32 := by decide
theorem test_witness_RegisterWritesAreReadBack : (31#5 : Reg) ≠ 0#5 ∧ (0#5 : Reg) ≠ 31#5 := by decide
theorem test_witness_StartOfARun : Memory.wf [(0, 0x13#8), (3, 0x01#8)] ∧ Memory.within [(0, 0x13#8), (3, 0x01#8)] 4 := by
  decide
theorem test_witness_StepExecutesTheDecodedInstruction :
    addiAtTheEnd.status = .running ∧ addiAtTheEnd.pc.toNat % 4 = 0 ∧ addiAtTheEnd.pc.toNat + 4 ≤ addiAtTheEnd.memSize ∧
    decode (addiAtTheEnd.mem.read (addiAtTheEnd.pc.toNat + 3) ++ addiAtTheEnd.mem.read (addiAtTheEnd.pc.toNat + 2)
      ++ addiAtTheEnd.mem.read (addiAtTheEnd.pc.toNat + 1) ++ addiAtTheEnd.mem.read addiAtTheEnd.pc.toNat) =
      .instr (.addi 5#5 1#5 1#32) := by decide
theorem test_witness_MisalignedFetchComesFirst :
    ({ State.reset with pc := 0x00040002#32 } : State).status = .running ∧ (0x00040002#32).toNat % 4 ≠ 0 := by decide
theorem test_witness_FetchOutsideTheImageFaults :
    ({ State.reset with pc := 0x00040000#32 } : State).status = .running ∧ (0x00040000#32).toNat % 4 = 0 ∧
    State.reset.memSize < (0x00040000#32).toNat + 4 := by decide
theorem test_witness_UndecodableWordsFault :
    (placed 0x0003FFFC#32 0xFFFFFFFF [] []).status = .running ∧ (placed 0x0003FFFC#32 0xFFFFFFFF [] []).pc.toNat % 4 = 0 ∧
    (placed 0x0003FFFC#32 0xFFFFFFFF [] []).mem.readLE 0x3FFFC 4 = 0xFFFFFFFF#32 ∧
    0x3FFFC + 4 ≤ (placed 0x0003FFFC#32 0xFFFFFFFF [] []).memSize ∧ decode 0xFFFFFFFF#32 = .unknownEncoding ∧
    (placed 0x00000100#32 0x0020A163 [] []).mem.readLE 0x100 4 = 0x0020A163#32 ∧
    decode 0x0020A163#32 = .undefinedBranchKind := by decide
theorem test_witness_StepsExactlyWhileRunning :
    State.reset.status = .running ∧ (State.reset.withStatus (.terminated .envExit)).status = .terminated .envExit := by
  decide
theorem test_witness_TerminationChangesOnlyStatus :
    (after ecallTerminated).map State.status = some (.terminated .envExit) ∧
    (after lwPastTheEnd).map State.status = some (.terminated (.fault (.outOfBounds 0x0003FFFD#32 4))) := by decide
theorem test_witness_FaultsOfAStepInOrder :
    (after lwPastTheEnd).map State.status = some (.terminated (.fault (.outOfBounds 0x0003FFFD#32 4))) := by decide
theorem test_witness_InstructionsFaultExactlyOutOfBounds :
    lwPastTheEnd.status = .running ∧
    dataAccess (.lw 5#5 1#5 0#32) lwPastTheEnd = some (0x0003FFFD#32, 4) ∧
    lwPastTheEnd.memSize < (0x0003FFFD#32).toNat + 4 := by decide
theorem test_witness_MisalignedFetchRecordsThePc :
    jalMisaligned.status = .running ∧ (Instr.jal 1#5 2#32).transfersControl = true ∧
    (after jalMisaligned).map State.pc = some 0x00000102#32 := by decide
theorem test_witness_StepKeepsTheInvariant : jalMisaligned.Inv ∧ (after jalMisaligned).isSome = true := by decide
theorem test_witness_InvariantHoldsAtTheStart :
    Params.admitted ⟨1, [], 0xFFFFFFFE#32, .external⟩ ∧ Params.admitted ⟨2 ^ 32, bytes, 0#32, .external⟩ ∧
    (0xFFFFFFFE#32).toNat % 2 = 0 := by decide
theorem test_witness_StepKeepsTheParameters : (after addiAtTheEnd).isSome = true := by decide
/-- From reset with nothing placed the one step ends the run. -/
theorem test_witness_ReachedStatesAreWellFormed :
    Params.admitted ⟨4, [], 0#32, .external⟩ ∧
    ∃ t, Reaches (State.start ⟨4, [], 0#32, .external⟩) t ∧ t.status ≠ .running ∧ Reaches t t :=
  ⟨by decide, _, .step (.here _) rfl, by decide, .here _⟩
theorem test_witness_MisalignedPcComesFromATransfer :
    (after jalMisaligned).map (fun t => (t.status, t.pc.toNat % 4)) = some (.running, 2) := by decide
theorem test_witness_OtherInstructionsAdvanceByFour :
    fetchDecode addiAtTheEnd = .ok (.addi 5#5 1#5 1#32) ∧ (Instr.addi 5#5 1#5 1#32).transfersControl = false ∧
    (after addiAtTheEnd).map State.status = some .running := by decide
theorem test_witness_OnlyTheDestinationRegisterChanges :
    seen 5#5 addiAtTheEnd = some (0x00000008#32, 0x00040000#32, .running) ∧ addiAtTheEnd.x.read 5#5 = 0#32 ∧
    seen 10#5 ecallResumed = some (0x0000002A#32, 0x0000000C#32, .running) ∧ ecallResumed.x.read 10#5 = 0#32 := by decide
theorem test_witness_OnlyStoredBytesChange :
    swLastWord.mem.wf ∧ (after swLastWord).map (fun t => t.mem.read 0x3FFFF) = some 0x89#8 ∧
    swLastWord.mem.read 0x3FFFF = 0x00#8 ∧ ecallResumed.mem.wf ∧
    (after ecallResumed).map (fun t => t.mem.read 0x200) = some 0x80#8 ∧ ecallResumed.mem.read 0x200 = 0x00#8 := by decide
theorem test_witness_UnreadRegistersDoNotMatter :
    Instr.addi 5#5 1#5 1#32 ≠ .ecall ∧ 5#5 ∉ (Instr.addi 5#5 1#5 1#32).sources ∧
    (Instr.addi 5#5 1#5 1#32).dest = some 5#5 ∧ addiAtTheEnd.status = .running ∧
    (after addiAtTheEnd).map State.status = some .running := by decide
theorem test_witness_ByteWritesAreReadBack : Memory.wf bytes := by decide
theorem test_witness_EveryImageHasOneCanonicalForm : Memory.wf bytes ∧ Memory.within bytes 0x204 := by decide
theorem test_witness_CheckedAccesses :
    lwLastWord.mem.wf ∧ (0x0003FFFC#32).toNat + 4 ≤ lwLastWord.memSize ∧ lwLastWord.memSize < (0x0003FFFD#32).toNat + 4 ∧
    (0x0003FFFF#32).toNat + 1 ≤ lwLastWord.memSize ∧ lwLastWord.memSize < (0x0003FFFF#32).toNat + 2 := by decide
theorem test_witness_LoadsReturnWhatStoresWrote :
    swLastWord.mem.wf ∧ (swLastWord.x.read 1#5 + 0#32).toNat + 4 ≤ swLastWord.memSize ∧
    (after swLastWord).map (fun t => t.x.read 1#5 + 0#32) = some (swLastWord.x.read 1#5 + 0#32) := by decide
theorem test_witness_ByteLoadsSeeTheStoredWord :
    swLastWord.wf ∧ (swLastWord.x.read 1#5 + 0#32).toNat + 4 ≤ swLastWord.memSize ∧
    (after swLastWord).map (fun t => t.x.read 1#5 + 3#32) = some (swLastWord.x.read 1#5 + 0#32 + BitVec.ofNat 32 3) := by
  decide
/-- `sw x2, 0x104(x0)` at 0x100 with x2 the ECALL word. -/
def swOverNext : State := placed 0x00000100#32 0x10202223 [(2#5, 0x00000073#32)] []
theorem test_witness_StoresAreSeenByTheNextFetch :
    swOverNext.status = .running ∧ swOverNext.mem.wf ∧ swOverNext.x.read 0#5 + 0x104#32 = swOverNext.pc + 4#32 ∧
    (swOverNext.pc + 4#32).toNat % 4 = 0 ∧ (swOverNext.pc + 4#32).toNat + 4 ≤ swOverNext.memSize ∧
    decode (swOverNext.x.read 2#5) = .instr .ecall := by decide
theorem test_witness_LuiWritesTheUpperImmediate : opcodeOf 0xAAAAADB7#32 = 0x37#7 := by decide
theorem test_witness_LoadsReadAndExtend :
    (lwLastWord.x.read 1#5 + 0#32).toNat + 4 ≤ lwLastWord.memSize ∧
    (lwLastWord.x.read 1#5 + 2#32).toNat + 2 ≤ lwLastWord.memSize ∧
    (lwLastWord.x.read 1#5 + 3#32).toNat + 1 ≤ lwLastWord.memSize := by decide
theorem test_witness_LoadExtensionIsByKind :
    memRead (placed 0#32 0x13 [(1#5, 0x00000200#32)] bytes) 0x00000200#32 1 = .ok 0x00000080#32 ∧
    memRead (placed 0#32 0x13 [(1#5, 0x00000200#32)] bytes) 0x00000200#32 2 = .ok 0x0000FF80#32 ∧
    memRead lwLastWord (lwLastWord.x.read 1#5 + 0#32) 4 = .ok 0x00000000#32 := by decide
theorem test_witness_AccessesOutsideTheImage :
    lwPastTheEnd.memSize < (lwPastTheEnd.x.read 1#5 + 0#32).toNat + 4 ∧
    lwPastTheEnd.memSize < (lwPastTheEnd.x.read 1#5 + 2#32).toNat + 2 ∧
    lwPastTheEnd.memSize < (lwPastTheEnd.x.read 1#5 + 3#32).toNat + 1 := by decide
theorem test_witness_StoresWriteTheLowBytes :
    swLastWord.mem.wf ∧ (swLastWord.x.read 1#5 + 0#32).toNat + 4 ≤ swLastWord.memSize ∧
    (swLastWord.x.read 1#5 + 2#32).toNat + 2 ≤ swLastWord.memSize ∧
    (swLastWord.x.read 1#5 + 3#32).toNat + 1 ≤ swLastWord.memSize := by decide
theorem test_witness_ImmediateLogic :
    opcodeOf 0xFFF0C293#32 = 0x13#7 ∧ funct3Of 0xFFF0C293#32 = 0b100#3 ∧ opcodeOf 0x8000E293#32 = 0x13#7 ∧
    funct3Of 0x8000E293#32 = 0b110#3 ∧ opcodeOf 0x0FF0F293#32 = 0x13#7 ∧ funct3Of 0x0FF0F293#32 = 0b111#3 ∧
    (0x8000E293#32).getLsbD 31 = true ∧ (0x0FF0F293#32).getLsbD 31 = false := by decide
theorem test_witness_EcallActsOnTheAnswer :
    ecallTerminated.handler = .constant .terminate ∧ askHandler ecallTerminated = .terminate ∧
    State.reset.handler = .external ∧
    askHandler ecallResumed = .resume (Regs.write State.reset.x 10#5 0x0000002A#32) bytes ∧ bytes.wf ∧
    bytes.within ecallResumed.memSize := by decide
theorem test_witness_PlacedWordRunsNext :
    lwLastWord.mem.wf ∧ 4 ≤ lwLastWord.memSize ∧ decodeTableWord 32 0x003100B3 = some (.add 1#5 2#5 3#5) := by decide

end Sys2Proof.Tests
end

/-! PROOFS. Register writes in the state (R32, R33): the written register, the other registers, and x0. The content is
`Regs.read_write`; here stand its two cases and the one lemma about the whole state. -/

namespace Sys2Proof

theorem Regs.read_write_same (x : Regs) {r : Reg} (hr : r ≠ 0#5) (v : Word) : (x.write r v).read r = v := by
  rw [Regs.read_write, if_pos ⟨rfl, hr⟩]

theorem Regs.read_write_of_ne (x : Regs) {r q : Reg} (hq : q ≠ r) (v : Word) :
    (x.write r v).read q = x.read q := by
  rw [Regs.read_write, if_neg (fun h => hq h.1)]

/-- A discarded write leaves every field of the state, not only the registers (R33). -/
@[simp] theorem Machine.State.writeReg_zero (s : Machine.State) (v : Word) : s.writeReg 0#5 v = s :=
  congrArg s.withX (Regs.write_zero s.x v)

/-- Settles O9: a write is read back in its register alone, and a write to x0 is discarded. -/
theorem registerWritesAreReadBack : Obligations.RegisterWritesAreReadBack := by
  refine ⟨fun s r v hr => ⟨?written, ?others⟩, ?discarded, ?zero⟩
  case written => exact Regs.read_write_same s.x hr v
  case others => exact fun q hq => Regs.read_write_of_ne s.x hq v
  case discarded => exact Machine.State.writeReg_zero
  case zero => exact fun s => Regs.read_zero s.x

end Sys2Proof

/-! PROOFS. Loads (R68, R200): sign and zero extension bit by bit, the one register a commit changes, and what a load does
when its `MemRead` answers. -/

namespace Sys2Proof

/-- R26: the low `n` bits are kept, and bit `n - 1` fills the rest. -/
theorem getLsbD_sext {n j : Nat} (v : Word) (hn : 0 < n) (hj : j < 32) :
    (sext n v).getLsbD j = if j < n then v.getLsbD j else v.getLsbD (n - 1) := by
  have sign : (v.setWidth n).msb = v.getLsbD (n - 1) := by
    rw [BitVec.msb_setWidth, decide_eq_true hn, Bool.true_and]
  rw [sext, BitVec.getLsbD_signExtend, decide_eq_true hj, Bool.true_and, sign]
  by_cases low : j < n
  · simp [low]
  · simp [low]

/-- R26: the low `n` bits are kept, and the rest are 0. -/
theorem getLsbD_zext {n j : Nat} (v : Word) (hj : j < 32) :
    (zext n v).getLsbD j = if j < n then v.getLsbD j else false := by
  by_cases low : j < n
  · simp [zext, hj, low]
  · simp [zext, low]

namespace Machine

/-- Four bytes are all 32 bits: there is nothing to extend (R68). -/
@[simp] theorem extendLoaded_four (signed : Bool) (v : Word) : extendLoaded 4 signed v = v := by
  cases signed
  case false => simp [extendLoaded, zext]
  case true => simp [extendLoaded, sext]

/-- What `commitReg` leaves in the registers, whatever the next pc (R33, R147). -/
theorem onlyRegister_writeReg_withPc (s : State) (rd : Reg) (v pc : Word) :
    OnlyRegister s ((s.writeReg rd v).withPc pc) rd v :=
  fun q => Regs.read_write s.x rd q v

/-- R68, R200: a load whose `MemRead` answers completes, and writes the extended answer to its destination alone. -/
theorem load_of_memRead {n : Nat} {rs1 : Reg} {imm v : Word} {s : State}
    (h : memRead s (effectiveAddr s rs1 imm) n = .ok v) (signed : Bool) (rd : Reg) :
    ∃ t, load n signed rd rs1 imm s = .next t ∧ OnlyRegister s t rd (extendLoaded n signed v) := by
  refine ⟨_, ?_, onlyRegister_writeReg_withPc s rd _ (nextPc s)⟩
  simp only [load, h, commitReg]

/-- A signed load of `n` bytes: every upper bit is bit `8 * n - 1` of what was read. -/
theorem load_signed_bits {n : Nat} (hn : 0 < n) {rs1 : Reg} {imm v : Word} {s : State}
    (h : memRead s (effectiveAddr s rs1 imm) n = .ok v) (rd : Reg) :
    ∃ t r, load n true rd rs1 imm s = .next t ∧ OnlyRegister s t rd r ∧
      ∀ j, j < 32 → r.getLsbD j = if j < 8 * n then v.getLsbD j else v.getLsbD (8 * n - 1) :=
  let ⟨t, hload, hreg⟩ := load_of_memRead h true rd
  ⟨t, sext (8 * n) v, hload, hreg, fun _ => getLsbD_sext v (by omega)⟩

/-- An unsigned load of `n` bytes: every upper bit is 0. -/
theorem load_unsigned_bits {n : Nat} {rs1 : Reg} {imm v : Word} {s : State}
    (h : memRead s (effectiveAddr s rs1 imm) n = .ok v) (rd : Reg) :
    ∃ t r, load n false rd rs1 imm s = .next t ∧ OnlyRegister s t rd r ∧
      ∀ j, j < 32 → r.getLsbD j = if j < 8 * n then v.getLsbD j else false :=
  let ⟨t, hload, hreg⟩ := load_of_memRead h false rd
  ⟨t, zext (8 * n) v, hload, hreg, fun _ => getLsbD_zext v⟩

end Machine

/-- Settles O42: each of the five loads is `load` at its width and signedness, and LW has nothing to extend. -/
theorem loadExtensionIsByKind : Obligations.LoadExtensionIsByKind := by
  refine ⟨fun p hp rd rs1 imm v s h => ?signed, fun p hp rd rs1 imm v s h => ?unsigned,
    fun rd rs1 imm v s h => ?word⟩
  case signed =>
    obtain rfl | rfl : p = (.lb, 1) ∨ p = (.lh, 2) := by simpa using hp
    · exact Machine.load_signed_bits Nat.one_pos h rd
    · exact Machine.load_signed_bits Nat.two_pos h rd
  case unsigned =>
    obtain rfl | rfl : p = (.lbu, 1) ∨ p = (.lhu, 2) := by simpa using hp
    · exact Machine.load_unsigned_bits h rd
    · exact Machine.load_unsigned_bits h rd
  case word =>
    obtain ⟨t, hload, hreg⟩ := Machine.load_of_memRead h true rd
    rw [Machine.extendLoaded_four] at hreg
    exact ⟨t, hload, hreg⟩

end Sys2Proof

/-! PROOFS. Fields and immediates of a word (R91, R100 to R106): a field is the shift and mask of its formula, and each
immediate is the sign extension of a concatenation of slices whose top bit is bit 31 of the word, so that its bits and its
range are those of the concatenation. -/

namespace Sys2Proof

/-- R91's formula of a field: shift right, then mask. -/
theorem toNat_extractLsb'_eq_and (w : Word) (start len : Nat) :
    (w.extractLsb' start len).toNat = (w.toNat >>> start) &&& (2 ^ len - 1) := by
  rw [BitVec.extractLsb'_toNat, Nat.and_two_pow_sub_one_eq_mod]

/-! ### The bits of the immediates (R100 to R104) -/

/-- An immediate's bits: those of its slices, then its sign, which is bit 31 of the word. -/
theorem getLsbD_signExtend_of_sign {n j : Nat} {v : BitVec n} (w : Word) (hj : j < 32)
    (sign : v.getLsbD (n - 1) = w.getLsbD 31) :
    (v.signExtend 32).getLsbD j = if j < n then v.getLsbD j else w.getLsbD 31 := by
  rw [BitVec.getLsbD_signExtend, decide_eq_true hj, Bool.true_and, BitVec.msb_eq_getLsbD_last, sign]

theorem getLsbD_iImm (w : Word) {j : Nat} (hj : j < 32) :
    (iImm w).getLsbD j = if j < 11 then w.getLsbD (20 + j) else w.getLsbD 31 := by
  rw [iImm, getLsbD_signExtend_of_sign w hj (by simp)]
  simp only [BitVec.getLsbD_extractLsb']
  grind

theorem getLsbD_sImm (w : Word) {j : Nat} (hj : j < 32) :
    (sImm w).getLsbD j =
      if j < 5 then w.getLsbD (7 + j) else if j < 11 then w.getLsbD (20 + j) else w.getLsbD 31 := by
  rw [sImm, getLsbD_signExtend_of_sign w hj (by simp only [BitVec.getLsbD_append, BitVec.getLsbD_extractLsb']; rfl)]
  simp only [BitVec.getLsbD_append, BitVec.getLsbD_extractLsb']
  grind

theorem getLsbD_bImm (w : Word) {j : Nat} (hj : j < 32) :
    (bImm w).getLsbD j =
      if j = 0 then false else if j < 5 then w.getLsbD (7 + j) else if j < 11 then w.getLsbD (20 + j)
      else if j = 11 then w.getLsbD 7 else w.getLsbD 31 := by
  rw [bImm, getLsbD_signExtend_of_sign w hj (by simp only [BitVec.getLsbD_append, BitVec.getLsbD_extractLsb']; rfl)]
  simp only [BitVec.getLsbD_append, BitVec.getLsbD_extractLsb']
  grind

theorem getLsbD_uImm (w : Word) {j : Nat} (hj : j < 32) :
    (uImm w).getLsbD j = if j < 12 then false else w.getLsbD j := by
  simp only [uImm, BitVec.getLsbD_append, BitVec.getLsbD_extractLsb', BitVec.getLsbD_zero]
  grind

theorem getLsbD_jImm (w : Word) {j : Nat} (hj : j < 32) :
    (jImm w).getLsbD j =
      if j = 0 then false else if j < 11 then w.getLsbD (20 + j) else if j = 11 then w.getLsbD 20
      else if j < 20 then w.getLsbD j else w.getLsbD 31 := by
  rw [jImm, getLsbD_signExtend_of_sign w hj (by simp only [BitVec.getLsbD_append, BitVec.getLsbD_extractLsb']; rfl)]
  simp only [BitVec.getLsbD_append, BitVec.getLsbD_extractLsb']
  grind

/-- R106: the shift amount is the low five bits of the I immediate. -/
theorem shamtOf_eq_iImm_low (w : Word) : shamtOf w = (iImm w).extractLsb' 0 5 := by
  refine BitVec.eq_of_getLsbD_eq fun j hj => ?_
  rw [shamtOf, BitVec.getLsbD_extractLsb', BitVec.getLsbD_extractLsb', Nat.zero_add,
    getLsbD_iImm w (by omega), if_pos (by omega)]

/-! ### The ranges of the immediates -/

/-- The sign extension of `n` bits is a signed `n`-bit value. -/
theorem toInt_signExtend_range {n : Nat} (v : BitVec n) (hn : n ≤ 32) :
    -2 ^ (n - 1) ≤ (v.signExtend 32).toInt ∧ (v.signExtend 32).toInt ≤ 2 ^ (n - 1) - 1 := by
  rw [BitVec.toInt_signExtend_of_le hn]
  exact ⟨BitVec.le_toInt v, Int.le_sub_one_of_lt BitVec.toInt_lt⟩

/-- A divisor of 2^32 that divides a word divides it as a signed value too. -/
theorem toInt_emod_eq_zero {d : Nat} (hd : d ∣ 2 ^ 32) {v : Word} (h : v.toNat % d = 0) : v.toInt % d = 0 := by
  have wrap : (d : Int) ∣ v.toInt - v.toNat := by
    rw [BitVec.toInt_eq_toNat_bmod]
    exact (Int.natCast_dvd_natCast.mpr hd).trans Int.dvd_bmod_sub_self
  have dvd : (d : Int) ∣ v.toNat := Int.natCast_dvd_natCast.mpr (Nat.dvd_of_mod_eq_zero h)
  exact Int.emod_eq_zero_of_dvd ((dvd_iff_dvd_of_dvd_sub wrap).mpr dvd)

/-- The converse of `getLsbD_zero_of_even`, for any number of low bits. -/
theorem toNat_mod_two_pow_of_low_zero {v : Word} {k : Nat} (low : ∀ j < k, v.getLsbD j = false) :
    v.toNat % 2 ^ k = 0 := by
  refine Nat.eq_of_testBit_eq fun j => ?_
  rw [Nat.testBit_mod_two_pow, Nat.zero_testBit]
  by_cases hj : j < k
  · rw [BitVec.testBit_toNat, low j hj, Bool.and_false]
  · rw [decide_eq_false hj, Bool.false_and]

theorem bImm_even (w : Word) : (bImm w).toNat % 2 = 0 :=
  toNat_mod_two_pow_of_low_zero (k := 1) fun j hj => by
    rw [getLsbD_bImm w (by omega), if_pos (by omega)]

theorem jImm_even (w : Word) : (jImm w).toNat % 2 = 0 :=
  toNat_mod_two_pow_of_low_zero (k := 1) fun j hj => by
    rw [getLsbD_jImm w (by omega), if_pos (by omega)]

theorem uImm_toNat_mod (w : Word) : (uImm w).toNat % 4096 = 0 :=
  toNat_mod_two_pow_of_low_zero (k := 12) fun j hj => by
    rw [getLsbD_uImm w (by omega), if_pos hj]

theorem iImm_range (w : Word) : -2048 ≤ (iImm w).toInt ∧ (iImm w).toInt ≤ 2047 :=
  toInt_signExtend_range (n := 12) _ (by decide)

theorem sImm_range (w : Word) : -2048 ≤ (sImm w).toInt ∧ (sImm w).toInt ≤ 2047 :=
  toInt_signExtend_range (n := 12) _ (by decide)

/-- The 13-bit maximum is odd, so the highest even offset is one below it. -/
theorem bImm_range (w : Word) :
    -4096 ≤ (bImm w).toInt ∧ (bImm w).toInt ≤ 4094 ∧ (bImm w).toNat % 2 = 0 := by
  have range : -4096 ≤ (bImm w).toInt ∧ (bImm w).toInt ≤ 4095 :=
    toInt_signExtend_range (n := 13) _ (by decide)
  have even := toInt_emod_eq_zero (d := 2) (by decide) (bImm_even w)
  exact ⟨range.1, by omega, bImm_even w⟩

/-- The 21-bit maximum is odd, so the highest even offset is one below it. -/
theorem jImm_range (w : Word) :
    -1048576 ≤ (jImm w).toInt ∧ (jImm w).toInt ≤ 1048574 ∧ (jImm w).toNat % 2 = 0 := by
  have range : -1048576 ≤ (jImm w).toInt ∧ (jImm w).toInt ≤ 1048575 :=
    toInt_signExtend_range (n := 21) _ (by decide)
  have even := toInt_emod_eq_zero (d := 2) (by decide) (jImm_even w)
  exact ⟨range.1, by omega, jImm_even w⟩

/-- U is all 32 bits, and its highest multiple of 4096 is 4095 below the 32-bit maximum. -/
theorem uImm_range (w : Word) :
    -2147483648 ≤ (uImm w).toInt ∧ (uImm w).toInt ≤ 2147479552 ∧ (uImm w).toInt % 4096 = 0 := by
  have lower : -2147483648 ≤ (uImm w).toInt := BitVec.le_toInt _
  have upper : (uImm w).toInt < 2147483648 := BitVec.toInt_lt
  have multiple := toInt_emod_eq_zero (d := 4096) (by decide) (uImm_toNat_mod w)
  omega

/-- Settles O1: every field is a slice, and a slice is its shift and mask. -/
theorem fieldsAreFixedBitSlices : Obligations.FieldsAreFixedBitSlices := fun w =>
  ⟨toNat_extractLsb'_eq_and w 0 7, toNat_extractLsb'_eq_and w 7 5, toNat_extractLsb'_eq_and w 12 3,
    toNat_extractLsb'_eq_and w 15 5, toNat_extractLsb'_eq_and w 20 5, toNat_extractLsb'_eq_and w 25 7,
    shamtOf_eq_iImm_low w, BitVec.extractLsb'_toNat 20 5 w⟩

/-- Settles O2: the bits of each immediate, then the range that its width and its constant low bits leave. -/
theorem immediatesFollowTheirLayouts : Obligations.ImmediatesFollowTheirLayouts := fun w =>
  ⟨fun _ => getLsbD_iImm w, fun _ => getLsbD_sImm w, fun _ => getLsbD_bImm w, fun _ => getLsbD_uImm w,
    fun _ => getLsbD_jImm w, iImm_range w, sImm_range w, bImm_range w, uImm_range w, jImm_range w⟩

end Sys2Proof

/-! PROOFS. Words outside the opcode table (R109, R116): none of the ten opcodes, the fault of their fetch, and the classes
of words that have no such opcode. -/

namespace Sys2Proof

/-- The ten opcodes of R109, in the order the decoder asks for them. -/
def listedOpcodes : List (BitVec 7) :=
  [0x37#7, 0x17#7, 0x6F#7, 0x67#7, 0x63#7, 0x03#7, 0x23#7, 0x13#7, 0x33#7, 0x73#7]

/-- The atomic, floating-point and custom opcodes, and those of the words of all zeros and all ones (R116). -/
def absentOpcodes : List (BitVec 7) :=
  [0x2F#7, 0x07#7, 0x27#7, 0x53#7, 0x0B#7, 0x2B#7, 0x5B#7, 0x7B#7, 0x00#7, 0x7F#7]

theorem decode_of_unlisted {w : Word} (h : opcodeOf w ∉ listedOpcodes) : decode w = .unknownEncoding := by
  simp only [listedOpcodes, List.mem_cons, List.not_mem_nil, or_false, not_or] at h
  simp [decode, h]

theorem opcodeOf_low_bits (w : Word) : (opcodeOf w).extractLsb' 0 2 = w.extractLsb' 0 2 := by
  refine BitVec.eq_of_getLsbD_eq fun j hj => ?_
  simp [opcodeOf]

theorem listedOpcodes_low_bits : ∀ op ∈ listedOpcodes, op.extractLsb' 0 2 = 0b11#2 := by decide

theorem absentOpcodes_unlisted : ∀ op ∈ absentOpcodes, op ∉ listedOpcodes := by decide

namespace Machine

theorem fetchDecode_of_unknown {s : State} {w : Word} (hf : fetch s = .ok w) (hd : decode w = .unknownEncoding) :
    fetchDecode s = .error (.unknownEncoding (opcodeOf w) w s.pc) := by
  simp only [fetchDecode, hf, hd]

end Machine

/-- Settles O6: each class of words has no listed opcode, and a word without one ends the run at its fetch. -/
theorem unlistedOpcodesAreUnknown : Obligations.UnlistedOpcodesAreUnknown := by
  refine ⟨fun w h => ⟨decode_of_unlisted h, fun s hr hf => ?ended⟩, fun w h => ?compressed, fun w h => ?fence,
    fun w h => ?absent, ?zeros, ?ones⟩
  case ended =>
    have fault := Machine.fetchDecode_of_unknown hf (decode_of_unlisted h)
    exact ⟨_, w, s.pc, Machine.step_of_fault hr fault, rfl⟩
  case compressed =>
    refine decode_of_unlisted fun listed => h ?_
    rw [← opcodeOf_low_bits, listedOpcodes_low_bits _ listed]
  case fence => exact decode_of_unlisted (h ▸ by decide)
  case absent => exact decode_of_unlisted (absentOpcodes_unlisted _ h)
  case zeros => exact decode_of_unlisted (by decide)
  case ones => exact decode_of_unlisted (by decide)

end Sys2Proof

/-! PROOFS. The fetch (R142, R148): what a fault of fetch or decode leaves of the state, and the alignment check that comes
before any read of memory. -/

namespace Sys2Proof

namespace Machine

theorem fetch_of_misaligned {s : State} (h : s.pc.toNat % 4 ≠ 0) : fetch s = .error (.misalignedFetch s.pc) :=
  if_pos h

theorem fetchDecode_of_fetch_fault {s : State} {f : CoreFault} (h : fetch s = .error f) :
    fetchDecode s = .error f := by
  simp only [fetchDecode, h]

/-- A fault of fetch or decode ends the run and changes nothing else (R148). -/
theorem step_endedBy_of_fault {s : State} {f : CoreFault} (hr : s.status = .running)
    (hf : fetchDecode s = .error f) : ∃ t, step s = .next t ∧ EndedBy f s t :=
  ⟨_, step_of_fault hr hf, rfl, rfl, rfl, rfl, rfl, rfl⟩

end Machine

/-- Settles O12: the alignment check of `fetch` answers before memory is read, and its fault ends the step. -/
theorem misalignedFetchComesFirst : Obligations.MisalignedFetchComesFirst := fun _ hr misaligned =>
  Machine.step_endedBy_of_fault hr (Machine.fetchDecode_of_fetch_fault (Machine.fetch_of_misaligned misaligned))

end Sys2Proof

/-! PROOFS. Upper immediates (R147, R160): an instruction that commits one register and the default advance, and the
U immediate as the word rounded down to a multiple of 2^12. -/

namespace Sys2Proof

theorem decode_of_lui {w : Word} (h : opcodeOf w = 0x37#7) : decode w = .instr (.lui (rdOf w) (uImm w)) :=
  if_pos h

theorem uImm_toNat (w : Word) : (uImm w).toNat = w.toNat / 4096 * 4096 := by
  have upper : w.toNat / 2 ^ 12 < 2 ^ 20 := Nat.div_lt_of_lt_mul w.isLt
  calc (uImm w).toNat
      = (w.extractLsb' 12 20).toNat <<< 12 ||| (0#12).toNat := BitVec.toNat_append _ _
    _ = w.toNat / 2 ^ 12 * 2 ^ 12 := by
        rw [BitVec.extractLsb'_toNat, Nat.shiftRight_eq_div_pow, Nat.mod_eq_of_lt upper, Nat.shiftLeft_eq]
        exact Nat.or_zero _

namespace Machine

/-- What every instruction does that ends in `commitReg` with the default advance (R147). -/
theorem writesResult_of_commitReg {i : Instr} {rd : Reg} {value : State → Word}
    (h : ∀ s, exec i s = commitReg rd (value s) (nextPc s) s) : WritesResult i rd value := fun s =>
  ⟨_, h s, onlyRegister_writeReg_withPc s rd (value s) (nextPc s), rfl, ⟨rfl, fun _ => rfl⟩, rfl, rfl⟩

end Machine

/-- Settles O36: LUI's opcode is the decoder's first case, and LUI commits its immediate. -/
theorem luiWritesTheUpperImmediate : Obligations.LuiWritesTheUpperImmediate := by
  refine ⟨?decoded, fun rd imm => ?result, ?immediate⟩
  case decoded => exact fun _ => decode_of_lui
  case result => exact Machine.writesResult_of_commitReg fun _ => rfl
  case immediate => exact uImm_toNat

end Sys2Proof

/-! PROOFS. The ALU's logic operations and shifts (R233 to R239): the shift amount `b[4:0]` as a number, and each shift as
arithmetic or bit by bit on that amount. -/

namespace Sys2Proof

namespace Machine

/-- `b[4:0]` as a number (R236). -/
theorem shiftAmount_eq_mod (b : Word) : shiftAmount b = b.toNat % 32 := by
  rw [shiftAmount, BitVec.extractLsb'_toNat, Nat.shiftRight_zero]

theorem alu_sll_toNat (a b : Word) : (alu .sll a b).toNat = a.toNat * 2 ^ (b.toNat % 32) % 2 ^ 32 := by
  rw [alu, BitVec.toNat_shiftLeft, Nat.shiftLeft_eq, shiftAmount_eq_mod]

theorem alu_srl_toNat (a b : Word) : (alu .srl a b).toNat = a.toNat / 2 ^ (b.toNat % 32) := by
  rw [alu, BitVec.toNat_ushiftRight, Nat.shiftRight_eq_div_pow, shiftAmount_eq_mod]

/-- Bit `j` of SRA comes from `b[4:0]` places higher in `a`, and past bit 31 it is a copy of `a[31]` (R239). -/
theorem getLsbD_alu_sra (a b : Word) {j : Nat} (hj : j < 32) :
    (alu .sra a b).getLsbD j =
      if j + b.toNat % 32 < 32 then a.getLsbD (j + b.toNat % 32) else a.getLsbD 31 := by
  rw [alu, BitVec.getLsbD_sshiftRight, decide_eq_false (by omega), shiftAmount_eq_mod, Nat.add_comm j,
    BitVec.msb_eq_getLsbD_last, Bool.not_false, Bool.true_and]

end Machine

/-- Settles O50: the logic operations are the library's bit by bit, and each shift has its own lemma above. -/
theorem aluLogicAndShifts : Obligations.AluLogicAndShifts := by
  intro a b
  refine ⟨?and, ?or, ?xor, ?sll, ?srl, ?sra⟩
  case and => exact fun _ => BitVec.getLsbD_and
  case or => exact fun _ => BitVec.getLsbD_or
  case xor => exact fun _ => BitVec.getLsbD_xor
  case sll => exact Machine.alu_sll_toNat a b
  case srl => exact Machine.alu_srl_toNat a b
  case sra => exact fun _ => Machine.getLsbD_alu_sra a b

end Sys2Proof

/-! PROOFS. OP-IMM (R113, R250, R254 to R256): the words of the opcode, an instruction that is one ALU operation of a
register and an operand of its own, and the upper bits of the I immediate. -/

namespace Sys2Proof

theorem decode_of_opImm {w : Word} (h : opcodeOf w = 0x13#7) : decode w = decodeOpImm w := by
  simp [decode, h]

theorem decodeOpImm_of_xori {w : Word} (h : funct3Of w = 0b100#3) :
    decodeOpImm w = .instr (.xori (rdOf w) (rs1Of w) (iImm w)) := by
  simp [decodeOpImm, h]

theorem decodeOpImm_of_ori {w : Word} (h : funct3Of w = 0b110#3) :
    decodeOpImm w = .instr (.ori (rdOf w) (rs1Of w) (iImm w)) := by
  simp [decodeOpImm, h]

theorem decodeOpImm_of_andi {w : Word} (h : funct3Of w = 0b111#3) :
    decodeOpImm w = .instr (.andi (rdOf w) (rs1Of w) (iImm w)) := by
  simp [decodeOpImm, h]

/-- From bit 11 up the I immediate is its sign. -/
theorem getLsbD_iImm_upper (w : Word) {j : Nat} (hj : j < 32) (upper : 11 ≤ j) :
    (iImm w).getLsbD j = w.getLsbD 31 := by
  rw [getLsbD_iImm w hj, if_neg (Nat.not_lt.mpr upper)]

theorem getLsbD_or_iImm_of_negative {w : Word} (negative : w.getLsbD 31 = true) (a : Word) {j : Nat}
    (hj : j < 32) (upper : 11 ≤ j) : (a ||| iImm w).getLsbD j = true := by
  rw [BitVec.getLsbD_or, getLsbD_iImm_upper w hj upper, negative, Bool.or_true]

theorem getLsbD_and_iImm_of_nonneg {w : Word} (nonneg : w.getLsbD 31 = false) (a : Word) {j : Nat}
    (hj : j < 32) (upper : 11 ≤ j) : (a &&& iImm w).getLsbD j = false := by
  rw [BitVec.getLsbD_and, getLsbD_iImm_upper w hj upper, nonneg, Bool.and_false]

namespace Machine

/-- What an OP-IMM instruction does (R250), its result in any form `value` equal to the ALU's. -/
theorem writesResult_of_opImm {i : Instr} {op : AluOp} {rd rs1 : Reg} {b : Word} {value : State → Word}
    (runs : ∀ s, exec i s = opImm op rd rs1 b s) (result : ∀ s, alu op (s.x.read rs1) b = value s) :
    WritesResult i rd value :=
  writesResult_of_commitReg fun s => by rw [runs, opImm, aluInto, result]

theorem xori_writesResult (rd rs1 : Reg) (imm : Word) :
    WritesResult (.xori rd rs1 imm) rd fun s => s.x.read rs1 ^^^ imm :=
  writesResult_of_opImm (op := .xor) (fun _ => rfl) fun _ => rfl

theorem ori_writesResult (rd rs1 : Reg) (imm : Word) :
    WritesResult (.ori rd rs1 imm) rd fun s => s.x.read rs1 ||| imm :=
  writesResult_of_opImm (op := .or) (fun _ => rfl) fun _ => rfl

theorem andi_writesResult (rd rs1 : Reg) (imm : Word) :
    WritesResult (.andi rd rs1 imm) rd fun s => s.x.read rs1 &&& imm :=
  writesResult_of_opImm (op := .and) (fun _ => rfl) fun _ => rfl

/-- −1 is the word of all ones, and the exclusive or with it is NOT (R254). -/
theorem xori_neg_one_writesResult (rd rs1 : Reg) :
    WritesResult (.xori rd rs1 0xFFFFFFFF#32) rd fun s => ~~~ (s.x.read rs1) :=
  writesResult_of_opImm (op := .xor) (fun _ => rfl) fun _ => BitVec.xor_allOnes

theorem andi_neg_one_writesResult (rd rs1 : Reg) :
    WritesResult (.andi rd rs1 0xFFFFFFFF#32) rd fun s => s.x.read rs1 :=
  writesResult_of_opImm (op := .and) (fun _ => rfl) fun _ => BitVec.and_allOnes

end Machine

/-- Settles O47: the decoder's OP-IMM cases, each instruction's ALU operation, and the sign of the immediate in the bits
from 11 up. -/
theorem immediateLogic : Obligations.ImmediateLogic := by
  refine ⟨fun w h => ?decoded, fun rd rs1 imm => ?results, ?not, ?copy, fun w a j hj => ?corners⟩
  case decoded =>
    rw [decode_of_opImm h]
    exact ⟨decodeOpImm_of_xori, decodeOpImm_of_ori, decodeOpImm_of_andi⟩
  case results =>
    exact ⟨Machine.xori_writesResult rd rs1 imm, Machine.ori_writesResult rd rs1 imm,
      Machine.andi_writesResult rd rs1 imm⟩
  case not => exact Machine.xori_neg_one_writesResult
  case copy => exact Machine.andi_neg_one_writesResult
  case corners =>
    exact ⟨fun negative => getLsbD_or_iImm_of_negative negative a hj,
      fun nonneg upper => getLsbD_and_iImm_of_nonneg nonneg a hj (by omega)⟩

end Sys2Proof

/-! PROOFS. `MisalignedFetch` (R142, R301): the alignment check of the fetch is its only source, for an instruction's own
fault is out of bounds, and a transfer of control leaves the run going with whatever pc it sets. -/

namespace Sys2Proof

namespace Machine

theorem fetch_of_aligned {s : State} (h : s.pc.toNat % 4 = 0) : fetch s = memRead s s.pc 4 :=
  if_neg (not_not.mpr h)

/-- From an aligned pc, neither the bounds check nor the decoder raises `MisalignedFetch`. -/
theorem fetchDecode_ne_misalignedFetch {s : State} (h : s.pc.toNat % 4 = 0) (p : Word) :
    fetchDecode s ≠ .error (.misalignedFetch p) := by
  rw [fetchDecode, fetch_of_aligned h]
  by_cases inside : inBounds s s.pc 4
  · rw [memRead_inBounds inside]
    cases hd : decode (s.mem.readLE s.pc.toNat 4) <;> simp [hd]
  · simp [memRead_outOfBounds inside]

theorem fetchDecode_eq_misalignedFetch_iff {s : State} {p : Word} :
    fetchDecode s = .error (.misalignedFetch p) ↔ s.pc.toNat % 4 ≠ 0 ∧ p = s.pc := by
  by_cases aligned : s.pc.toNat % 4 = 0
  · simp [aligned, fetchDecode_ne_misalignedFetch aligned]
  · simp [aligned, fetchDecode_of_fetch_fault (fetch_of_misaligned aligned), eq_comm]

/-- An environment call does not fault: Terminate is no fault, and Resume leaves the run as it was (R291, R292, R309). -/
theorem answer_status_ne_fault {s : State} (hr : s.status = .running) (r : EnvResponse) (f : CoreFault) :
    (answer r s).status ≠ .terminated (.fault f) := by
  cases r
  case terminate => simp [answer]
  case resume => simp [answer, hr]

/-- The only fault of an instruction is its data access leaving the image (R230, R300). -/
theorem exec_fault_outOfBounds {i : Instr} {s t : State} {f : CoreFault} (hr : s.status = .running)
    (h : exec i s = .next t) (ht : t.status = .terminated (.fault f)) :
    ∃ a n, dataAccess i s = some (a, n) ∧ ¬ inBounds s a n ∧ f = .outOfBounds a n := by
  cases effect_of_exec h
  case register rd v pc hd hp e => simp [e, hr] at ht
  case branch pc hd hc e => simp [e, hr] at ht
  case store a n v hd hc ha hb e => simp [e, hr] at ht
  case fault a n hc ha hb e => exact ⟨a, n, ha, hb, by simpa [e] using ht.symm⟩
  case environment hi e => exact absurd (e ▸ ht) (answer_status_ne_fault hr (askHandler s) f)

/-- A jump or branch does not look at its target (R147). -/
theorem status_of_transfersControl {i : Instr} {s t : State} (hi : i.transfersControl = true)
    (h : exec i s = .next t) : t.status = s.status := by
  cases effect_of_exec h
  case register rd v pc hd hp e => simp [e]
  case branch pc hd hc e => simp [e]
  case store a n v hd hc ha hb e => simp [hc] at hi
  case fault a n hc ha hb e => simp [hc] at hi
  case environment hecall e => simp [hecall, Instr.transfersControl] at hi

theorem fetchDecode_of_step_misalignedFetch {s t : State} {p : Word} (h : step s = .next t)
    (ht : t.status = .terminated (.fault (.misalignedFetch p))) :
    fetchDecode s = .error (.misalignedFetch p) := by
  obtain ⟨hr, ⟨f, hf, rfl⟩ | ⟨i, -, hexec⟩⟩ := step_cases h
  · cases ht
    exact hf
  · obtain ⟨a, n, -, -, hfault⟩ := exec_fault_outOfBounds hr hexec ht
    cases hfault

end Machine

/-- Settles O19: of fetch, decode and execution only the alignment check raises `MisalignedFetch`, and the state after a
transfer still runs, so that its misaligned pc is the next fault. -/
theorem misalignedFetchRecordsThePc : Obligations.MisalignedFetchRecordsThePc := by
  refine ⟨fun s p hr => ⟨?raised, ?recorded⟩, fun s t i hr hi hexec misaligned => ?shown⟩
  case raised =>
    rintro ⟨t, hstep, ht⟩
    exact Machine.fetchDecode_eq_misalignedFetch_iff.mp (Machine.fetchDecode_of_step_misalignedFetch hstep ht)
  case recorded =>
    intro h
    exact ⟨_, Machine.step_of_fault hr (Machine.fetchDecode_eq_misalignedFetch_iff.mpr h), rfl⟩
  case shown =>
    have running : t.status = .running := (Machine.status_of_transfersControl hi hexec).trans hr
    exact misalignedFetchComesFirst t running misaligned

end Sys2Proof

/-! PROOFS. Words and instructions (R107 to R119): in each format a word is its fields encoded again, and the decoder finds
the fields the encoder put there, so that encoding and decoding are inverse. -/

namespace Sys2Proof

/-! ### A word from its fields -/

theorem encR_of_fields {w : Word} {f7 : BitVec 7} {f3 : BitVec 3} {op : BitVec 7} (h7 : funct7Of w = f7)
    (h3 : funct3Of w = f3) (hop : opcodeOf w = op) : encR f7 (rs2Of w) (rs1Of w) f3 (rdOf w) op = w := by
  subst h7 h3 hop
  refine BitVec.eq_of_getLsbD_eq fun i hi => ?_
  simp only [encR, funct7Of, rs2Of, rs1Of, funct3Of, rdOf, opcodeOf, BitVec.getLsbD_append,
    BitVec.getLsbD_extractLsb']
  grind

theorem encI_of_fields {w : Word} {f3 : BitVec 3} {op : BitVec 7} (h3 : funct3Of w = f3)
    (hop : opcodeOf w = op) : encI (iImm w) (rs1Of w) f3 (rdOf w) op = w := by
  subst h3 hop
  refine BitVec.eq_of_getLsbD_eq fun i hi => ?_
  simp only [encI, rs1Of, funct3Of, rdOf, opcodeOf, BitVec.getLsbD_append, BitVec.getLsbD_extractLsb']
  grind [getLsbD_iImm]

theorem encS_of_fields {w : Word} {f3 : BitVec 3} {op : BitVec 7} (h3 : funct3Of w = f3)
    (hop : opcodeOf w = op) : encS (sImm w) (rs2Of w) (rs1Of w) f3 op = w := by
  subst h3 hop
  refine BitVec.eq_of_getLsbD_eq fun i hi => ?_
  simp only [encS, rs2Of, rs1Of, funct3Of, opcodeOf, BitVec.getLsbD_append, BitVec.getLsbD_extractLsb']
  grind [getLsbD_sImm]

theorem encB_of_fields {w : Word} {f3 : BitVec 3} {op : BitVec 7} (h3 : funct3Of w = f3)
    (hop : opcodeOf w = op) : encB (bImm w) (rs2Of w) (rs1Of w) f3 op = w := by
  subst h3 hop
  refine BitVec.eq_of_getLsbD_eq fun i hi => ?_
  simp only [encB, rs2Of, rs1Of, funct3Of, opcodeOf, BitVec.getLsbD_append, BitVec.getLsbD_extractLsb']
  grind [getLsbD_bImm]

theorem encU_of_fields {w : Word} {op : BitVec 7} (hop : opcodeOf w = op) : encU (uImm w) (rdOf w) op = w := by
  subst hop
  refine BitVec.eq_of_getLsbD_eq fun i hi => ?_
  simp only [encU, rdOf, opcodeOf, BitVec.getLsbD_append, BitVec.getLsbD_extractLsb']
  grind [getLsbD_uImm]

theorem encJ_of_fields {w : Word} {op : BitVec 7} (hop : opcodeOf w = op) : encJ (jImm w) (rdOf w) op = w := by
  subst hop
  refine BitVec.eq_of_getLsbD_eq fun i hi => ?_
  simp only [encJ, rdOf, opcodeOf, BitVec.getLsbD_append, BitVec.getLsbD_extractLsb']
  grind [getLsbD_jImm]

/-! ### The ranges of the immediates (R100 to R104) -/

theorem imm12Ok_iImm (w : Word) : imm12Ok (iImm w) = true := decide_eq_true (iImm_range w)
theorem imm12Ok_sImm (w : Word) : imm12Ok (sImm w) = true := decide_eq_true (sImm_range w)
theorem immBOk_bImm (w : Word) : immBOk (bImm w) = true := decide_eq_true (bImm_range w)
theorem immJOk_jImm (w : Word) : immJOk (jImm w) = true := decide_eq_true (jImm_range w)
theorem immUOk_uImm (w : Word) : immUOk (uImm w) = true := decide_eq_true (uImm_toNat_mod w)

theorem even_of_immBOk {v : Word} (h : immBOk v = true) : v.toNat % 2 = 0 :=
  let ⟨_, _, even⟩ := of_decide_eq_true h
  even

theorem even_of_immJOk {v : Word} (h : immJOk v = true) : v.toNat % 2 = 0 :=
  let ⟨_, _, even⟩ := of_decide_eq_true h
  even

/-! ### The decoder by opcode (R109) -/

theorem decode_of_auipc {w : Word} (h : opcodeOf w = 0x17#7) : decode w = .instr (.auipc (rdOf w) (uImm w)) := by
  simp [decode, h]

theorem decode_of_jal {w : Word} (h : opcodeOf w = 0x6F#7) : decode w = .instr (.jal (rdOf w) (jImm w)) := by
  simp [decode, h]

theorem decode_of_jalr {w : Word} (h : opcodeOf w = 0x67#7) :
    decode w = if funct3Of w = 0b000#3 then .instr (.jalr (rdOf w) (rs1Of w) (iImm w)) else .unknownEncoding := by
  simp [decode, h]

theorem decode_of_branch {w : Word} (h : opcodeOf w = 0x63#7) : decode w = decodeBranch w := by
  simp [decode, h]

theorem decode_of_load {w : Word} (h : opcodeOf w = 0x03#7) : decode w = decodeLoad w := by
  simp [decode, h]

theorem decode_of_store {w : Word} (h : opcodeOf w = 0x23#7) : decode w = decodeStore w := by
  simp [decode, h]

theorem decode_of_op {w : Word} (h : opcodeOf w = 0x33#7) : decode w = decodeOp w := by
  simp [decode, h]

theorem decode_of_system {w : Word} (h : opcodeOf w = 0x73#7) :
    decode w = if w = 0x00000073#32 then .instr .ecall else .unknownEncoding := by
  simp [decode, h]

/-- Settles O3: the decoder finds the opcode, `funct3` and `funct7` the encoder put there, and sign extension gives a
well-formed immediate back. -/
theorem decodeOfEncodeIsIdentity : Obligations.DecodeOfEncodeIsIdentity := by
  intro i hi
  cases i
  case lui rd imm =>
    have aligned : imm.toNat % 4096 = 0 := of_decide_eq_true hi
    simp [encode, decode_of_lui, uImm_encU aligned]
  case auipc rd imm =>
    have aligned : imm.toNat % 4096 = 0 := of_decide_eq_true hi
    simp [encode, decode_of_auipc, uImm_encU aligned]
  case jal rd imm =>
    simp [encode, decode_of_jal, jImm_encJ (even_of_immJOk hi), sext21_eq hi]
  case jalr rd rs1 imm => simp [encode, decode_of_jalr, sext12_eq hi]
  case beq rs1 rs2 imm | bne rs1 rs2 imm | blt rs1 rs2 imm | bge rs1 rs2 imm | bltu rs1 rs2 imm | bgeu rs1 rs2 imm =>
    simp [encode, decode_of_branch, decodeBranch, bImm_encB (even_of_immBOk hi), sext13_eq hi]
  case lb rd rs1 imm | lh rd rs1 imm | lw rd rs1 imm | lbu rd rs1 imm | lhu rd rs1 imm =>
    simp [encode, decode_of_load, decodeLoad, sext12_eq hi]
  case sb rs1 rs2 imm | sh rs1 rs2 imm | sw rs1 rs2 imm =>
    simp [encode, decode_of_store, decodeStore, sext12_eq hi]
  case addi rd rs1 imm | slti rd rs1 imm | sltiu rd rs1 imm | xori rd rs1 imm | ori rd rs1 imm | andi rd rs1 imm =>
    simp [encode, decode_of_opImm, decodeOpImm, sext12_eq hi]
  case slli rd rs1 shamt | srli rd rs1 shamt | srai rd rs1 shamt =>
    simp [encode, decode_of_opImm, decodeOpImm]
  case ecall => decide
  all_goals simp [encode, decode_of_op, decodeOp]

/-! ### What a decoded instruction encodes to -/

theorem funct3_eq_five {f : BitVec 3} (h0 : f ≠ 0b000#3) (h2 : f ≠ 0b010#3) (h3 : f ≠ 0b011#3) (h4 : f ≠ 0b100#3)
    (h6 : f ≠ 0b110#3) (h7 : f ≠ 0b111#3) (h1 : f ≠ 0b001#3) : f = 0b101#3 := by
  bv_omega

theorem funct3_eq_seven {f : BitVec 3} (h0 : f ≠ 0b000#3) (h1 : f ≠ 0b001#3) (h2 : f ≠ 0b010#3) (h3 : f ≠ 0b011#3)
    (h4 : f ≠ 0b100#3) (h5 : f ≠ 0b101#3) (h6 : f ≠ 0b110#3) : f = 0b111#3 := by
  bv_omega

/-- `i` is well-formed and its word is `w`. -/
def EncodesTo (i : Instr) (w : Word) : Prop := i.WellFormed ∧ encode i = w

theorem encodesTo_of_decodeBranch {w : Word} {i : Instr} (hop : opcodeOf w = 0x63#7)
    (h : decodeBranch w = .instr i) : EncodesTo i w := by
  simp only [decodeBranch] at h
  split_ifs at h <;> cases h
  all_goals exact ⟨immBOk_bImm w, encB_of_fields ‹_› hop⟩

theorem encodesTo_of_decodeLoad {w : Word} {i : Instr} (hop : opcodeOf w = 0x03#7)
    (h : decodeLoad w = .instr i) : EncodesTo i w := by
  simp only [decodeLoad] at h
  split_ifs at h <;> cases h
  all_goals exact ⟨imm12Ok_iImm w, encI_of_fields ‹_› hop⟩

theorem encodesTo_of_decodeStore {w : Word} {i : Instr} (hop : opcodeOf w = 0x23#7)
    (h : decodeStore w = .instr i) : EncodesTo i w := by
  simp only [decodeStore] at h
  split_ifs at h <;> cases h
  all_goals exact ⟨imm12Ok_sImm w, encS_of_fields ‹_› hop⟩

/-- The last case of the decoder's OP-IMM is the shift right, whose `funct3` is the one value left. -/
theorem encodesTo_of_decodeOpImm {w : Word} {i : Instr} (hop : opcodeOf w = 0x13#7)
    (h : decodeOpImm w = .instr i) : EncodesTo i w := by
  simp only [decodeOpImm] at h
  split_ifs at h with h0 h2 h3 h4 h6 h7 h1 hslli hsrli hsrai <;> cases h
  · exact ⟨imm12Ok_iImm w, encI_of_fields h0 hop⟩
  · exact ⟨imm12Ok_iImm w, encI_of_fields h2 hop⟩
  · exact ⟨imm12Ok_iImm w, encI_of_fields h3 hop⟩
  · exact ⟨imm12Ok_iImm w, encI_of_fields h4 hop⟩
  · exact ⟨imm12Ok_iImm w, encI_of_fields h6 hop⟩
  · exact ⟨imm12Ok_iImm w, encI_of_fields h7 hop⟩
  · exact ⟨rfl, encR_of_fields hslli h1 hop⟩
  · exact ⟨rfl, encR_of_fields hsrli (funct3_eq_five h0 h2 h3 h4 h6 h7 h1) hop⟩
  · exact ⟨rfl, encR_of_fields hsrai (funct3_eq_five h0 h2 h3 h4 h6 h7 h1) hop⟩

/-- The last case of the decoder's OP is AND, whose `funct3` is the one value left. -/
theorem encodesTo_of_decodeOp {w : Word} {i : Instr} (hop : opcodeOf w = 0x33#7)
    (h : decodeOp w = .instr i) : EncodesTo i w := by
  simp only [decodeOp] at h
  split_ifs at h with hf7 h0 h1 h2 h3 h4 h5 h6 hf7' h0 h5 <;> cases h
  case neg => exact ⟨rfl, encR_of_fields hf7 (funct3_eq_seven h0 h1 h2 h3 h4 h5 h6) hop⟩
  all_goals exact ⟨rfl, encR_of_fields ‹_› ‹_› hop⟩

/-- A word that decodes has a listed opcode. -/
theorem opcodeOf_listed_of_decode {w : Word} {i : Instr} (h : decode w = .instr i) : opcodeOf w ∈ listedOpcodes := by
  by_contra unlisted
  rw [decode_of_unlisted unlisted] at h
  cases h

/-- The ten opcodes one by one. -/
theorem mem_listedOpcodes {op : BitVec 7} : op ∈ listedOpcodes ↔
    op = 0x37#7 ∨ op = 0x17#7 ∨ op = 0x6F#7 ∨ op = 0x67#7 ∨ op = 0x63#7 ∨ op = 0x03#7 ∨ op = 0x23#7 ∨ op = 0x13#7 ∨
      op = 0x33#7 ∨ op = 0x73#7 := by
  simp [listedOpcodes]

theorem encodesTo_of_decode {w : Word} {i : Instr} (h : decode w = .instr i) : EncodesTo i w := by
  obtain hlui | hauipc | hjal | hjalr | hbranch | hload | hstore | hopImm | hreg | hsystem :=
    mem_listedOpcodes.mp (opcodeOf_listed_of_decode h)
  · rw [decode_of_lui hlui] at h
    cases h
    exact ⟨immUOk_uImm w, encU_of_fields hlui⟩
  · rw [decode_of_auipc hauipc] at h
    cases h
    exact ⟨immUOk_uImm w, encU_of_fields hauipc⟩
  · rw [decode_of_jal hjal] at h
    cases h
    exact ⟨immJOk_jImm w, encJ_of_fields hjal⟩
  · rw [decode_of_jalr hjalr] at h
    split_ifs at h with h3
    cases h
    exact ⟨imm12Ok_iImm w, encI_of_fields h3 hjalr⟩
  · exact encodesTo_of_decodeBranch hbranch (decode_of_branch hbranch ▸ h)
  · exact encodesTo_of_decodeLoad hload (decode_of_load hload ▸ h)
  · exact encodesTo_of_decodeStore hstore (decode_of_store hstore ▸ h)
  · exact encodesTo_of_decodeOpImm hopImm (decode_of_opImm hopImm ▸ h)
  · exact encodesTo_of_decodeOp hreg (decode_of_op hreg ▸ h)
  · rw [decode_of_system hsystem] at h
    split_ifs at h with hw
    cases h
    exact ⟨rfl, hw.symm⟩

/-- Settles O4: each case of the decoder fixes the fields it does not read out, so that the word is its fields encoded. -/
theorem encodeOfDecodeIsIdentity : Obligations.EncodeOfDecodeIsIdentity := fun _ _ => encodesTo_of_decode

end Sys2Proof

/-! PROOFS. The opcode table and the two decode faults: a word on a row of the table is the encoding of an instruction of
that row, and each opcode's decoder says for which `funct3` and `funct7` it has no variant. -/

namespace Sys2Proof

/-! ### The rows of opcode_table.json -/

theorem encode_tableRow : ∀ i : Instr, encode i &&& i.tableRow.1 = i.tableRow.2
  | .lui rd imm => Laws.TableRow.lui rd imm
  | .auipc rd imm => Laws.TableRow.auipc rd imm
  | .jal rd imm => Laws.TableRow.jal rd imm
  | .jalr rd rs1 imm => Laws.TableRow.jalr rd rs1 imm
  | .beq rs1 rs2 imm => Laws.TableRow.beq rs1 rs2 imm
  | .bne rs1 rs2 imm => Laws.TableRow.bne rs1 rs2 imm
  | .blt rs1 rs2 imm => Laws.TableRow.blt rs1 rs2 imm
  | .bge rs1 rs2 imm => Laws.TableRow.bge rs1 rs2 imm
  | .bltu rs1 rs2 imm => Laws.TableRow.bltu rs1 rs2 imm
  | .bgeu rs1 rs2 imm => Laws.TableRow.bgeu rs1 rs2 imm
  | .lb rd rs1 imm => Laws.TableRow.lb rd rs1 imm
  | .lh rd rs1 imm => Laws.TableRow.lh rd rs1 imm
  | .lw rd rs1 imm => Laws.TableRow.lw rd rs1 imm
  | .lbu rd rs1 imm => Laws.TableRow.lbu rd rs1 imm
  | .lhu rd rs1 imm => Laws.TableRow.lhu rd rs1 imm
  | .sb rs1 rs2 imm => Laws.TableRow.sb rs1 rs2 imm
  | .sh rs1 rs2 imm => Laws.TableRow.sh rs1 rs2 imm
  | .sw rs1 rs2 imm => Laws.TableRow.sw rs1 rs2 imm
  | .addi rd rs1 imm => Laws.TableRow.addi rd rs1 imm
  | .slti rd rs1 imm => Laws.TableRow.slti rd rs1 imm
  | .sltiu rd rs1 imm => Laws.TableRow.sltiu rd rs1 imm
  | .xori rd rs1 imm => Laws.TableRow.xori rd rs1 imm
  | .ori rd rs1 imm => Laws.TableRow.ori rd rs1 imm
  | .andi rd rs1 imm => Laws.TableRow.andi rd rs1 imm
  | .slli rd rs1 shamt => Laws.TableRow.slli rd rs1 shamt
  | .srli rd rs1 shamt => Laws.TableRow.srli rd rs1 shamt
  | .srai rd rs1 shamt => Laws.TableRow.srai rd rs1 shamt
  | .add rd rs1 rs2 => Laws.TableRow.add rd rs1 rs2
  | .sub rd rs1 rs2 => Laws.TableRow.sub rd rs1 rs2
  | .sll rd rs1 rs2 => Laws.TableRow.sll rd rs1 rs2
  | .slt rd rs1 rs2 => Laws.TableRow.slt rd rs1 rs2
  | .sltu rd rs1 rs2 => Laws.TableRow.sltu rd rs1 rs2
  | .xor rd rs1 rs2 => Laws.TableRow.xor rd rs1 rs2
  | .srl rd rs1 rs2 => Laws.TableRow.srl rd rs1 rs2
  | .sra rd rs1 rs2 => Laws.TableRow.sra rd rs1 rs2
  | .or rd rs1 rs2 => Laws.TableRow.or rd rs1 rs2
  | .and rd rs1 rs2 => Laws.TableRow.and rd rs1 rs2
  | .ecall => Laws.TableRow.ecall

/-- A slice that the mask leaves whole is the slice of the match. -/
theorem extractLsb'_of_masked {w mask mtch : Word} {start len : Nat} (h : w &&& mask = mtch)
    (whole : mask.extractLsb' start len = BitVec.allOnes len) :
    w.extractLsb' start len = mtch.extractLsb' start len := by
  rw [← h, BitVec.extractLsb'_and, whole, BitVec.and_allOnes]

theorem opcodeOf_of_masked {w : Word} {op : BitVec 7}
    (h : w &&& 0x0000007F#32 = encR 0#7 0#5 0#5 0#3 0#5 op) : opcodeOf w = op :=
  (extractLsb'_of_masked h (by decide)).trans (opcodeOf_encR ..)

theorem funct3Of_opcodeOf_of_masked {w : Word} {f3 : BitVec 3} {op : BitVec 7}
    (h : w &&& 0x0000707F#32 = encR 0#7 0#5 0#5 f3 0#5 op) : funct3Of w = f3 ∧ opcodeOf w = op :=
  ⟨(extractLsb'_of_masked h (by decide)).trans (funct3Of_encR ..),
    (extractLsb'_of_masked h (by decide)).trans (opcodeOf_encR ..)⟩

theorem encU_of_masked {w : Word} {op : BitVec 7} (h : w &&& 0x0000007F#32 = encR 0#7 0#5 0#5 0#3 0#5 op) :
    encU (uImm w) (rdOf w) op = w :=
  encU_of_fields (opcodeOf_of_masked h)

theorem encJ_of_masked {w : Word} {op : BitVec 7} (h : w &&& 0x0000007F#32 = encR 0#7 0#5 0#5 0#3 0#5 op) :
    encJ (jImm w) (rdOf w) op = w :=
  encJ_of_fields (opcodeOf_of_masked h)

theorem encI_of_masked {w : Word} {f3 : BitVec 3} {op : BitVec 7}
    (h : w &&& 0x0000707F#32 = encR 0#7 0#5 0#5 f3 0#5 op) : encI (iImm w) (rs1Of w) f3 (rdOf w) op = w :=
  let ⟨h3, hop⟩ := funct3Of_opcodeOf_of_masked h
  encI_of_fields h3 hop

theorem encS_of_masked {w : Word} {f3 : BitVec 3} {op : BitVec 7}
    (h : w &&& 0x0000707F#32 = encR 0#7 0#5 0#5 f3 0#5 op) : encS (sImm w) (rs2Of w) (rs1Of w) f3 op = w :=
  let ⟨h3, hop⟩ := funct3Of_opcodeOf_of_masked h
  encS_of_fields h3 hop

theorem encB_of_masked {w : Word} {f3 : BitVec 3} {op : BitVec 7}
    (h : w &&& 0x0000707F#32 = encR 0#7 0#5 0#5 f3 0#5 op) : encB (bImm w) (rs2Of w) (rs1Of w) f3 op = w :=
  let ⟨h3, hop⟩ := funct3Of_opcodeOf_of_masked h
  encB_of_fields h3 hop

theorem encR_of_masked {w : Word} {f7 : BitVec 7} {f3 : BitVec 3} {op : BitVec 7}
    (h : w &&& 0xFE00707F#32 = encR f7 0#5 0#5 f3 0#5 op) : encR f7 (rs2Of w) (rs1Of w) f3 (rdOf w) op = w :=
  encR_of_fields ((extractLsb'_of_masked h (by decide)).trans (funct7Of_encR ..))
    ((extractLsb'_of_masked h (by decide)).trans (funct3Of_encR ..))
    ((extractLsb'_of_masked h (by decide)).trans (opcodeOf_encR ..))

/-- A word on the row of `j` is the encoding of that row's instruction with the operands that stand in the word. -/
theorem exists_encodesTo_of_row {w : Word} : ∀ j : Instr, w &&& j.tableRow.1 = j.tableRow.2 →
    ∃ i, EncodesTo i w ∧ i.tableRow = j.tableRow
  | .lui _ _, h => ⟨.lui _ _, ⟨immUOk_uImm w, encU_of_masked h⟩, rfl⟩
  | .auipc _ _, h => ⟨.auipc _ _, ⟨immUOk_uImm w, encU_of_masked h⟩, rfl⟩
  | .jal _ _, h => ⟨.jal _ _, ⟨immJOk_jImm w, encJ_of_masked h⟩, rfl⟩
  | .jalr _ _ _, h => ⟨.jalr _ _ _, ⟨imm12Ok_iImm w, encI_of_masked h⟩, rfl⟩
  | .beq _ _ _, h => ⟨.beq _ _ _, ⟨immBOk_bImm w, encB_of_masked h⟩, rfl⟩
  | .bne _ _ _, h => ⟨.bne _ _ _, ⟨immBOk_bImm w, encB_of_masked h⟩, rfl⟩
  | .blt _ _ _, h => ⟨.blt _ _ _, ⟨immBOk_bImm w, encB_of_masked h⟩, rfl⟩
  | .bge _ _ _, h => ⟨.bge _ _ _, ⟨immBOk_bImm w, encB_of_masked h⟩, rfl⟩
  | .bltu _ _ _, h => ⟨.bltu _ _ _, ⟨immBOk_bImm w, encB_of_masked h⟩, rfl⟩
  | .bgeu _ _ _, h => ⟨.bgeu _ _ _, ⟨immBOk_bImm w, encB_of_masked h⟩, rfl⟩
  | .lb _ _ _, h => ⟨.lb _ _ _, ⟨imm12Ok_iImm w, encI_of_masked h⟩, rfl⟩
  | .lh _ _ _, h => ⟨.lh _ _ _, ⟨imm12Ok_iImm w, encI_of_masked h⟩, rfl⟩
  | .lw _ _ _, h => ⟨.lw _ _ _, ⟨imm12Ok_iImm w, encI_of_masked h⟩, rfl⟩
  | .lbu _ _ _, h => ⟨.lbu _ _ _, ⟨imm12Ok_iImm w, encI_of_masked h⟩, rfl⟩
  | .lhu _ _ _, h => ⟨.lhu _ _ _, ⟨imm12Ok_iImm w, encI_of_masked h⟩, rfl⟩
  | .sb _ _ _, h => ⟨.sb _ _ _, ⟨imm12Ok_sImm w, encS_of_masked h⟩, rfl⟩
  | .sh _ _ _, h => ⟨.sh _ _ _, ⟨imm12Ok_sImm w, encS_of_masked h⟩, rfl⟩
  | .sw _ _ _, h => ⟨.sw _ _ _, ⟨imm12Ok_sImm w, encS_of_masked h⟩, rfl⟩
  | .addi _ _ _, h => ⟨.addi _ _ _, ⟨imm12Ok_iImm w, encI_of_masked h⟩, rfl⟩
  | .slti _ _ _, h => ⟨.slti _ _ _, ⟨imm12Ok_iImm w, encI_of_masked h⟩, rfl⟩
  | .sltiu _ _ _, h => ⟨.sltiu _ _ _, ⟨imm12Ok_iImm w, encI_of_masked h⟩, rfl⟩
  | .xori _ _ _, h => ⟨.xori _ _ _, ⟨imm12Ok_iImm w, encI_of_masked h⟩, rfl⟩
  | .ori _ _ _, h => ⟨.ori _ _ _, ⟨imm12Ok_iImm w, encI_of_masked h⟩, rfl⟩
  | .andi _ _ _, h => ⟨.andi _ _ _, ⟨imm12Ok_iImm w, encI_of_masked h⟩, rfl⟩
  | .slli _ _ _, h => ⟨.slli _ _ _, ⟨rfl, encR_of_masked h⟩, rfl⟩
  | .srli _ _ _, h => ⟨.srli _ _ _, ⟨rfl, encR_of_masked h⟩, rfl⟩
  | .srai _ _ _, h => ⟨.srai _ _ _, ⟨rfl, encR_of_masked h⟩, rfl⟩
  | .add _ _ _, h => ⟨.add _ _ _, ⟨rfl, encR_of_masked h⟩, rfl⟩
  | .sub _ _ _, h => ⟨.sub _ _ _, ⟨rfl, encR_of_masked h⟩, rfl⟩
  | .sll _ _ _, h => ⟨.sll _ _ _, ⟨rfl, encR_of_masked h⟩, rfl⟩
  | .slt _ _ _, h => ⟨.slt _ _ _, ⟨rfl, encR_of_masked h⟩, rfl⟩
  | .sltu _ _ _, h => ⟨.sltu _ _ _, ⟨rfl, encR_of_masked h⟩, rfl⟩
  | .xor _ _ _, h => ⟨.xor _ _ _, ⟨rfl, encR_of_masked h⟩, rfl⟩
  | .srl _ _ _, h => ⟨.srl _ _ _, ⟨rfl, encR_of_masked h⟩, rfl⟩
  | .sra _ _ _, h => ⟨.sra _ _ _, ⟨rfl, encR_of_masked h⟩, rfl⟩
  | .or _ _ _, h => ⟨.or _ _ _, ⟨rfl, encR_of_masked h⟩, rfl⟩
  | .and _ _ _, h => ⟨.and _ _ _, ⟨rfl, encR_of_masked h⟩, rfl⟩
  | .ecall, h => ⟨.ecall, ⟨rfl, h.symm.trans BitVec.and_allOnes⟩, rfl⟩

/-- Settles O5: a word that decodes is encoded from an instruction, so it lies on that row; a word on a row is encoded from
an instruction of it, and so decodes to that. -/
theorem decodeAgreesWithOpcodeTable : Obligations.DecodeAgreesWithOpcodeTable := by
  refine ⟨fun w i h => ?agrees, fun w j h => ?decodes⟩
  case agrees =>
    obtain ⟨-, rfl⟩ := encodesTo_of_decode h
    exact encode_tableRow i
  case decodes =>
    obtain ⟨i, ⟨hwf, rfl⟩, hrow⟩ := exists_encodesTo_of_row j h
    exact ⟨i, decodeOfEncodeIsIdentity i hwf, hrow⟩

/-! ### The decode faults (R110 to R118) -/

theorem funct3_cases : ∀ f : BitVec 3, f = 0b000#3 ∨ f = 0b001#3 ∨ f = 0b010#3 ∨ f = 0b011#3 ∨ f = 0b100#3 ∨
    f = 0b101#3 ∨ f = 0b110#3 ∨ f = 0b111#3 := by
  decide

theorem decodeBranch_eq_undefined_iff (w : Word) :
    decodeBranch w = .undefinedBranchKind ↔ funct3Of w = 0b010#3 ∨ funct3Of w = 0b011#3 := by
  obtain h | h | h | h | h | h | h | h := funct3_cases (funct3Of w) <;> simp [decodeBranch, h]

theorem decodeBranch_ne_unknown (w : Word) : decodeBranch w ≠ .unknownEncoding := by
  obtain h | h | h | h | h | h | h | h := funct3_cases (funct3Of w) <;> simp [decodeBranch, h]

theorem decodeLoad_eq_unknown_iff (w : Word) :
    decodeLoad w = .unknownEncoding ↔ funct3Of w ∈ [0b011#3, 0b110#3, 0b111#3] := by
  obtain h | h | h | h | h | h | h | h := funct3_cases (funct3Of w) <;> simp [decodeLoad, h]

theorem decodeStore_eq_unknown_iff (w : Word) :
    decodeStore w = .unknownEncoding ↔ funct3Of w ∉ [0b000#3, 0b001#3, 0b010#3] := by
  obtain h | h | h | h | h | h | h | h := funct3_cases (funct3Of w) <;> simp [decodeStore, h]

theorem decodeLoad_ne_undefined (w : Word) : decodeLoad w ≠ .undefinedBranchKind := by
  simp only [decodeLoad]
  split_ifs <;> exact nofun

theorem decodeStore_ne_undefined (w : Word) : decodeStore w ≠ .undefinedBranchKind := by
  simp only [decodeStore]
  split_ifs <;> exact nofun

theorem decodeOpImm_ne_undefined (w : Word) : decodeOpImm w ≠ .undefinedBranchKind := by
  simp only [decodeOpImm]
  split_ifs <;> exact nofun

theorem decodeOp_ne_undefined (w : Word) : decodeOp w ≠ .undefinedBranchKind := by
  simp only [decodeOp]
  split_ifs <;> exact nofun

theorem decodeOpImm_eq_unknown_iff (w : Word) : decodeOpImm w = .unknownEncoding ↔
    (funct3Of w = 0b001#3 ∧ funct7Of w ≠ 0x00#7) ∨
    (funct3Of w = 0b101#3 ∧ funct7Of w ≠ 0x00#7 ∧ funct7Of w ≠ 0x20#7) := by
  by_cases h0 : funct7Of w = 0x00#7
  · obtain h | h | h | h | h | h | h | h := funct3_cases (funct3Of w) <;> simp [decodeOpImm, h0, h]
  · by_cases h20 : funct7Of w = 0x20#7
    · obtain h | h | h | h | h | h | h | h := funct3_cases (funct3Of w) <;> simp [decodeOpImm, h20, h]
    · obtain h | h | h | h | h | h | h | h := funct3_cases (funct3Of w) <;> simp [decodeOpImm, h0, h20, h]

theorem decodeOp_eq_unknown_iff (w : Word) : decodeOp w = .unknownEncoding ↔
    (funct7Of w ≠ 0x00#7 ∧ funct7Of w ≠ 0x20#7) ∨
    (funct7Of w = 0x20#7 ∧ funct3Of w ≠ 0b000#3 ∧ funct3Of w ≠ 0b101#3) := by
  by_cases h0 : funct7Of w = 0x00#7
  · obtain h | h | h | h | h | h | h | h := funct3_cases (funct3Of w) <;> simp [decodeOp, h0, h]
  · by_cases h20 : funct7Of w = 0x20#7
    · obtain h | h | h | h | h | h | h | h := funct3_cases (funct3Of w) <;> simp [decodeOp, h20, h]
    · simp [decodeOp, h0, h20]

/-- Settles O7: by the ten opcodes, what the decoder of each says; no other word is a decode fault but `UnknownEncoding`. -/
theorem decodeFaultsAreExactly : Obligations.DecodeFaultsAreExactly := by
  intro w
  rw [← listedOpcodes]
  by_cases listed : opcodeOf w ∈ listedOpcodes
  case neg =>
    have branch : opcodeOf w ≠ 0x63#7 := fun h => listed (h ▸ by decide)
    simp [decode_of_unlisted listed, listed, branch]
  obtain hlui | hauipc | hjal | hjalr | hbranch | hload | hstore | hopImm | hreg | hsystem :=
    mem_listedOpcodes.mp listed
  · simp [decode_of_lui hlui, hlui, listedOpcodes]
  · simp [decode_of_auipc hauipc, hauipc, listedOpcodes]
  · simp [decode_of_jal hjal, hjal, listedOpcodes]
  · rw [decode_of_jalr hjalr]
    by_cases h3 : funct3Of w = 0b000#3 <;> simp [hjalr, h3, listedOpcodes]
  · rw [decode_of_branch hbranch, decodeBranch_eq_undefined_iff]
    simp [decodeBranch_ne_unknown, hbranch, listedOpcodes]
  · rw [decode_of_load hload, decodeLoad_eq_unknown_iff]
    simp [decodeLoad_ne_undefined, hload, listedOpcodes]
  · rw [decode_of_store hstore, decodeStore_eq_unknown_iff]
    simp [decodeStore_ne_undefined, hstore, listedOpcodes]
  · rw [decode_of_opImm hopImm, decodeOpImm_eq_unknown_iff]
    simp [decodeOpImm_ne_undefined, hopImm, listedOpcodes]
  · rw [decode_of_op hreg, decodeOp_eq_unknown_iff]
    simp [decodeOp_ne_undefined, hreg, listedOpcodes]
  · rw [decode_of_system hsystem, hsystem]
    by_cases hw : w = 0x00000073#32 <;> simp [hw, listedOpcodes]

/-- Settles O8: the decoder evaluated on each of the nine words. -/
theorem writtenOutWordsDecode : Obligations.WrittenOutWordsDecode := by
  unfold Obligations.WrittenOutWordsDecode
  decide

end Sys2Proof

/-! PROOFS. One step (R140 to R149, R306): what fetch and decode answer in each case, which access of an instruction faults,
and what a step that ends the run leaves as it was. -/

namespace Sys2Proof

namespace Machine

/-! ### Fetch and decode -/

theorem fetch_of_outside {s : State} (aligned : s.pc.toNat % 4 = 0) (outside : ¬ inBounds s s.pc 4) :
    fetch s = .error (.outOfBounds s.pc 4) := by
  rw [fetch_of_aligned aligned, memRead_outOfBounds outside]

theorem fetch_of_fetchable {s : State} (h : fetchable s) : fetch s = .ok (s.mem.readLE s.pc.toNat 4) := by
  rw [fetch_of_aligned h.1, memRead_inBounds h.2]

theorem fetchDecode_of_instr {s : State} {w : Word} {i : Instr} (hf : fetch s = .ok w) (hd : decode w = .instr i) :
    fetchDecode s = .ok i := by
  simp only [fetchDecode, hf, hd]

theorem fetchDecode_of_undefined {s : State} {w : Word} (hf : fetch s = .ok w)
    (hd : decode w = .undefinedBranchKind) :
    fetchDecode s = .error (.undefinedBranchKind (funct3Of w) w s.pc) := by
  simp only [fetchDecode, hf, hd]

/-- The faults of fetch and decode, in the order of R306. -/
theorem fetchDecode_error_cases {s : State} {f : CoreFault} (h : fetchDecode s = .error f) :
    (s.pc.toNat % 4 ≠ 0 ∧ f = .misalignedFetch s.pc) ∨
    (s.pc.toNat % 4 = 0 ∧ ¬ inBounds s s.pc 4 ∧ f = .outOfBounds s.pc 4) ∨
    (fetchable s ∧ ∃ w, w = s.mem.readLE s.pc.toNat 4 ∧
      ((decode w = .unknownEncoding ∧ f = .unknownEncoding (opcodeOf w) w s.pc) ∨
       (decode w = .undefinedBranchKind ∧ f = .undefinedBranchKind (funct3Of w) w s.pc))) := by
  by_cases aligned : s.pc.toNat % 4 = 0
  case neg =>
    rw [fetchDecode_of_fetch_fault (fetch_of_misaligned aligned)] at h
    cases h
    exact .inl ⟨aligned, rfl⟩
  by_cases inside : inBounds s s.pc 4
  case neg =>
    rw [fetchDecode_of_fetch_fault (fetch_of_outside aligned inside)] at h
    cases h
    exact .inr (.inl ⟨aligned, inside, rfl⟩)
  have fetched := fetch_of_fetchable ⟨aligned, inside⟩
  refine .inr (.inr ⟨⟨aligned, inside⟩, _, rfl, ?_⟩)
  cases hd : decode (s.mem.readLE s.pc.toNat 4)
  case instr i =>
    rw [fetchDecode_of_instr fetched hd] at h
    cases h
  case unknownEncoding =>
    rw [fetchDecode_of_unknown fetched hd] at h
    cases h
    exact .inl ⟨rfl, rfl⟩
  case undefinedBranchKind =>
    rw [fetchDecode_of_undefined fetched hd] at h
    cases h
    exact .inr ⟨rfl, rfl⟩

/-! ### The faults of an instruction -/

/-- A data access that leaves the image ends the run before anything is written (R63, R200, R220). -/
theorem exec_of_outOfBounds {i : Instr} {s : State} {a : Word} {n : Nat} (ha : dataAccess i s = some (a, n))
    (hb : ¬ inBounds s a n) : exec i s = raise (.outOfBounds a n) s := by
  cases i
  case lb | lh | lw | lbu | lhu =>
    cases ha
    exact load_outOfBounds hb
  case sb | sh | sw =>
    cases ha
    exact store_outOfBounds hb
  all_goals cases ha

/-! ### The end of a run -/

theorem answer_of_terminated {s : State} (hr : s.status = .running) {e : EnvResponse} {r : Reason}
    (ht : (answer e s).status = .terminated r) : answer e s = s.withStatus (.terminated r) := by
  cases e
  case terminate =>
    cases ht
    rfl
  case resume => simp [answer, hr] at ht

theorem exec_of_terminated {i : Instr} {s t : State} {r : Reason} (hr : s.status = .running)
    (h : exec i s = .next t) (ht : t.status = .terminated r) : t = s.withStatus (.terminated r) := by
  cases effect_of_exec h
  case register rd v pc hd hp e => simp [e, hr] at ht
  case branch pc hd hc e => simp [e, hr] at ht
  case store a n v hd hc ha hb e => simp [e, hr] at ht
  case fault a n hc ha hb e =>
    subst e
    cases ht
    rfl
  case environment hi e =>
    subst e
    exact answer_of_terminated hr ht

theorem step_of_ended {s t : State} {r : Reason} (h : step s = .next t) (ht : t.status = .terminated r) :
    t = s.withStatus (.terminated r) := by
  obtain ⟨hr, ⟨f, -, rfl⟩ | ⟨i, -, hexec⟩⟩ := step_cases h
  · cases ht
    rfl
  · exact exec_of_terminated hr hexec ht

end Machine

/-- Settles O11: the word fetched is the four bytes, and `step` executes what it decodes to. -/
theorem stepExecutesTheDecodedInstruction : Obligations.StepExecutesTheDecodedInstruction := by
  intro s i hr aligned inside hd
  rw [← Memory.readLE_four] at hd
  exact Machine.step_of_instr hr (Machine.fetchDecode_of_instr (Machine.fetch_of_fetchable ⟨aligned, inside⟩) hd)

/-- Settles O13: past the alignment check, the bounds check of the fetch answers, and its fault ends the step. -/
theorem fetchOutsideTheImageFaults : Obligations.FetchOutsideTheImageFaults := fun _ hr aligned outside =>
  Machine.step_endedBy_of_fault hr
    (Machine.fetchDecode_of_fetch_fault (Machine.fetch_of_outside aligned (Nat.not_le.mpr outside)))

/-- Settles O14: the fetched word's decode fault is the step's. -/
theorem undecodableWordsFault : Obligations.UndecodableWordsFault := by
  intro s w hr aligned inside hw
  rw [← Memory.readLE_four] at hw
  subst hw
  have fetched := Machine.fetch_of_fetchable (s := s) ⟨aligned, inside⟩
  exact ⟨fun hd => Machine.step_endedBy_of_fault hr (Machine.fetchDecode_of_unknown fetched hd),
    fun hd => Machine.step_endedBy_of_fault hr (Machine.fetchDecode_of_undefined fetched hd)⟩

/-- Settles O15: a fault of fetch or decode is a next state, and so is whatever an instruction does. -/
theorem stepsExactlyWhileRunning : Obligations.StepsExactlyWhileRunning := by
  refine fun s => ⟨fun hr => ?running, fun r hr => Machine.step_of_terminated hr⟩
  case running =>
    cases hf : Machine.fetchDecode s with
    | error f => exact ⟨_, Machine.step_of_fault hr hf⟩
    | ok i =>
      obtain ⟨t, hexec, -⟩ := Machine.exec_effect i s
      exact ⟨t, (Machine.step_of_instr hr hf).trans hexec⟩

/-- Settles O16: both ways to end a run, a fault and the handler's Terminate, write `status` alone. -/
theorem terminationChangesOnlyStatus : Obligations.TerminationChangesOnlyStatus :=
  fun _ _ h _ ht => Machine.step_of_ended h ht

/-- Settles O17: the faults of fetch and decode in their order, then the one fault of an instruction. -/
theorem faultsOfAStepInOrder : Obligations.FaultsOfAStepInOrder := by
  intro s t f h ht
  obtain ⟨hr, ⟨f', hf, rfl⟩ | ⟨i, hf, hexec⟩⟩ := Machine.step_cases h
  · cases ht
    obtain misaligned | ⟨aligned, outside, rfl⟩ | ⟨⟨aligned, inside⟩, w, hw, fault⟩ :=
      Machine.fetchDecode_error_cases hf
    · exact .inl misaligned
    · exact .inr (.inl ⟨aligned, Nat.not_le.mp outside, rfl⟩)
    · exact .inr (.inr ⟨aligned, inside, w, hw, fault.imp_right .inl⟩)
  · obtain ⟨aligned, inside, hd⟩ := Machine.fetchDecode_ok hf
    obtain ⟨a, n, ha, hb, rfl⟩ := Machine.exec_fault_outOfBounds hr hexec ht
    exact .inr (.inr ⟨aligned, inside, _, rfl, .inr (.inr ⟨i, a, n, hd, ha, Nat.not_le.mp hb, rfl⟩)⟩)

/-- Settles O18: an instruction's fault is its data access out of bounds, and such an access faults. -/
theorem instructionsFaultExactlyOutOfBounds : Obligations.InstructionsFaultExactlyOutOfBounds := by
  refine fun i s hr => ⟨?faulted, ?outside⟩
  case faulted =>
    rintro ⟨t, f, hexec, ht⟩
    obtain ⟨a, n, ha, hb, -⟩ := Machine.exec_fault_outOfBounds hr hexec ht
    exact ⟨a, n, ha, Nat.not_le.mp hb⟩
  case outside =>
    rintro ⟨a, n, ha, hb⟩
    exact ⟨_, _, Machine.exec_of_outOfBounds ha (Nat.not_le.mpr hb), rfl⟩

end Sys2Proof

/-! PROOFS. What every step keeps (R12, R34, R36, R42, R43): the parameters, the canonical image, an even pc, and every
register and byte that the instruction does not name. -/

namespace Sys2Proof

namespace Machine

/-! ### The environment call -/

@[simp] theorem answer_memSize (e : EnvResponse) (s : State) : (answer e s).memSize = s.memSize := by
  cases e <;> rfl

@[simp] theorem answer_handler (e : EnvResponse) (s : State) : (answer e s).handler = s.handler := by
  cases e <;> rfl

/-- The image after an answer is the one before it or a normal form (R291, R292; log 6). -/
theorem answer_wf {s : State} (h : s.wf) (e : EnvResponse) : (answer e s).wf := by
  cases e
  case terminate => exact h
  case resume x' mem' => exact ⟨h.1, Memory.ofCells_wf _ _, Memory.ofCells_within _ _⟩

/-! ### Parameters and image -/

theorem exec_keeps_parameters {i : Instr} {s t : State} (h : exec i s = .next t) :
    t.memSize = s.memSize ∧ t.handler = s.handler := by
  cases effect_of_exec h
  case register rd v pc hd hp e => simp [e]
  case branch pc hd hc e => simp [e]
  case store a n v hd hc ha hb e => simp [e]
  case fault a n hc ha hb e => simp [e]
  case environment hi e => simp [e]

theorem exec_keeps_wf {i : Instr} {s t : State} (hs : s.wf) (h : exec i s = .next t) : t.wf := by
  cases effect_of_exec h
  case register rd v pc hd hp e => exact e ▸ hs
  case branch pc hd hc e => exact e ▸ hs
  case store a n v hd hc ha hb e =>
    obtain ⟨hsize, hcanonical, hwithin⟩ := hs
    exact e ▸ ⟨hsize, Memory.writeLE_wf hcanonical _ _ _, Memory.writeLE_within hwithin hb _⟩
  case fault a n hc ha hb e => exact e ▸ hs
  case environment hi e => exact e ▸ answer_wf hs _

theorem step_keeps_parameters {s t : State} (h : step s = .next t) : t.memSize = s.memSize ∧ t.handler = s.handler := by
  obtain ⟨-, ⟨f, -, rfl⟩ | ⟨i, -, hexec⟩⟩ := step_cases h
  · exact ⟨rfl, rfl⟩
  · exact exec_keeps_parameters hexec

theorem step_keeps_wf {s t : State} (hs : s.wf) (h : step s = .next t) : t.wf := by
  obtain ⟨-, ⟨f, -, rfl⟩ | ⟨i, -, hexec⟩⟩ := step_cases h
  · exact hs
  · exact exec_keeps_wf hs hexec

/-! ### The next pc -/

theorem toNat_nextPc (s : State) : (nextPc s).toNat = (s.pc.toNat + 4) % 2 ^ 32 := BitVec.toNat_add ..

theorem toNat_pcRelative (s : State) (imm : Word) : (pcRelative s imm).toNat = (s.pc.toNat + imm.toNat) % 2 ^ 32 :=
  BitVec.toNat_add ..

theorem nextPc_even {s : State} (h : s.pc.toNat % 2 = 0) : (nextPc s).toNat % 2 = 0 := by
  rw [toNat_nextPc]
  omega

theorem pcRelative_even {s : State} (h : s.pc.toNat % 2 = 0) {imm : Word} (himm : imm.toNat % 2 = 0) :
    (pcRelative s imm).toNat % 2 = 0 := by
  rw [toNat_pcRelative]
  omega

/-- Clearing bit 0 rounds down to an even number (R171). -/
theorem toNat_and_clear_bit_zero (v : Word) : (v &&& 0xFFFFFFFE#32).toNat = v.toNat / 2 * 2 := by
  calc (v &&& 0xFFFFFFFE#32).toNat
      = (v >>> 1 <<< 1).toNat := by rw [BitVec.shiftLeft_ushiftRight]; rfl
    _ = v.toNat / 2 * 2 := by
        rw [BitVec.toNat_shiftLeft, BitVec.toNat_ushiftRight, Nat.shiftLeft_eq, Nat.shiftRight_eq_div_pow]
        omega

theorem jalrTarget_even (s : State) (rs1 : Reg) (imm : Word) : (jalrTarget s rs1 imm).toNat % 2 = 0 := by
  rw [jalrTarget, toNat_and_clear_bit_zero]
  omega

theorem branch_keeps_even {s t : State} (h : s.pc.toNat % 2 = 0) {imm : Word} (himm : immBOk imm = true)
    {c : Comparison} {rs1 rs2 : Reg} (hb : branch c rs1 rs2 imm s = .next t) : t.pc.toNat % 2 = 0 := by
  cases hb
  rw [State.withPc_pc]
  split_ifs
  · exact pcRelative_even h (even_of_immBOk himm)
  · exact nextPc_even h

/-- A jump or branch with an immediate of its format goes to an even address (R102, R104, R171). -/
theorem transfer_keeps_even {i : Instr} {s t : State} (hi : i.transfersControl = true) (hwf : i.WellFormed)
    (hs : s.pc.toNat % 2 = 0) (h : exec i s = .next t) : t.pc.toNat % 2 = 0 := by
  cases i
  case jal rd imm =>
    cases h
    exact pcRelative_even hs (even_of_immJOk hwf)
  case jalr rd rs1 imm =>
    cases h
    exact jalrTarget_even s rs1 imm
  case beq | bne | blt | bge | bltu | bgeu => exact branch_keeps_even hs hwf h
  all_goals cases hi

theorem answer_pc_of_running {s : State} {e : EnvResponse} (ht : (answer e s).status = .running) :
    (answer e s).pc = nextPc s := by
  cases e
  case terminate => cases ht
  case resume => rfl

/-- Every other instruction that does not end the run advances by 4 (R36, R292). -/
theorem pc_of_exec_of_running {i : Instr} {s t : State} (hi : i.transfersControl = false) (h : exec i s = .next t)
    (ht : t.status = .running) : t.pc = nextPc s := by
  cases effect_of_exec h
  case register rd v pc hd hp e => rw [e, State.withPc_pc, hp hi]
  case branch pc hd hc e => simp [hc] at hi
  case store a n v hd hc ha hb e => rw [e, State.withPc_pc]
  case fault a n hc ha hb e => simp [e] at ht
  case environment hecall e =>
    subst e
    exact answer_pc_of_running ht

/-- Where a step leaves a running state, it executed an instruction that the decoder gave, which is well-formed. -/
theorem instr_of_step_of_running {s t : State} (h : step s = .next t) (ht : t.status = .running) :
    ∃ i, fetchDecode s = .ok i ∧ i.WellFormed ∧ s.pc.toNat % 4 = 0 ∧ exec i s = .next t := by
  obtain ⟨-, ⟨f, -, rfl⟩ | ⟨i, hf, hexec⟩⟩ := step_cases h
  · cases ht
  · obtain ⟨aligned, -, hd⟩ := fetchDecode_ok hf
    obtain ⟨hwf, -⟩ := encodeOfDecodeIsIdentity _ i hd
    exact ⟨i, hf, hwf, aligned, hexec⟩

/-- An instruction of a word keeps the pc even: it advances by 4 or transfers to an even address. -/
theorem exec_keeps_even_of_running {i : Instr} {s t : State} (hwf : i.WellFormed) (hs : s.pc.toNat % 2 = 0)
    (h : exec i s = .next t) (ht : t.status = .running) : t.pc.toNat % 2 = 0 := by
  cases hi : i.transfersControl with
  | true => exact transfer_keeps_even hi hwf hs h
  | false => exact pc_of_exec_of_running hi h ht ▸ nextPc_even hs

theorem step_keeps_even {s t : State} (hs : s.pc.toNat % 2 = 0) (h : step s = .next t) : t.pc.toNat % 2 = 0 := by
  cases ht : t.status with
  | terminated r => rwa [step_of_ended h ht, State.withStatus_pc]
  | running =>
    obtain ⟨i, -, hwf, -, hexec⟩ := instr_of_step_of_running h ht
    exact exec_keeps_even_of_running hwf hs hexec ht

/-! ### Runs -/

/-- What the first state has and every step keeps, every reached state has. -/
theorem Reaches.keeps {P : State → Prop} {s t : State} (h : Reaches s t) (first : P s)
    (kept : ∀ u v, P u → Machine.step u = .next v → P v) : P t := by
  induction h with
  | here => exact first
  | step _ hstep ih => exact kept _ _ ih hstep

/-- A run that has ended stays where it is (R43, R341). -/
theorem Reaches.eq_of_terminated {s t : State} (h : Reaches s t) {r : Reason} (hs : s.status = .terminated r) :
    t = s := by
  refine h.keeps (P := (· = s)) rfl fun u v hu hstep => ?_
  rw [hu, step_of_terminated hs] at hstep
  cases hstep

theorem start_wf {p : Params} (hp : p.admitted) : (State.start p).wf :=
  ⟨hp, Memory.ofCells_wf _ _, Memory.ofCells_within _ _⟩

/-! ### Registers and bytes -/

/-- An instruction writes at most its destination, or acts on the handler's answer (R34). -/
theorem dest_of_exec_register_changes {i : Instr} {s t : State} {r : Reg} (h : exec i s = .next t)
    (changed : t.x.read r ≠ s.x.read r) :
    i.dest = some r ∨ (i = .ecall ∧ ∃ x' mem', askHandler s = .resume x' mem') := by
  cases effect_of_exec h
  case register rd v pc hd hp e =>
    rw [e, onlyRegister_writeReg_withPc s rd v pc r] at changed
    split_ifs at changed with hr
    · exact .inl (hr.1 ▸ hd)
    · exact absurd rfl changed
  case branch pc hd hc e => simp [e] at changed
  case store a n v hd hc ha hb e => simp [e] at changed
  case fault a n hc ha hb e => simp [e] at changed
  case environment hi e =>
    cases hask : askHandler s with
    | terminate => simp [e, hask, answer] at changed
    | resume x' mem' => exact .inr ⟨hi, x', mem', rfl⟩

/-- An instruction writes at most the bytes its store covers, or acts on the handler's answer (R72, R73). -/
theorem storeAccess_of_exec_byte_changes {i : Instr} {s t : State} {a : Nat} (hs : s.mem.wf) (h : exec i s = .next t)
    (changed : t.mem.read a ≠ s.mem.read a) :
    (∃ b n, storeAccess i s = some (b, n) ∧ b.toNat ≤ a ∧ a < b.toNat + n ∧ a < s.memSize) ∨
      (i = .ecall ∧ ∃ x' mem', askHandler s = .resume x' mem') := by
  cases effect_of_exec h
  case register rd v pc hd hp e => simp [e] at changed
  case branch pc hd hc e => simp [e] at changed
  case store b n v hd hc hb inside e =>
    rw [e, State.withPc_mem, State.withMem_mem, Memory.read_writeLE hs] at changed
    split_ifs at changed with ha
    · exact .inl ⟨b, n, hb, ha.1, ha.2, Nat.lt_of_lt_of_le ha.2 inside⟩
    · exact absurd rfl changed
  case fault b n hc hb outside e => simp [e] at changed
  case environment hi e =>
    cases hask : askHandler s with
    | terminate => simp [e, hask, answer] at changed
    | resume x' mem' => exact .inr ⟨hi, x', mem', rfl⟩

end Machine

/-- Settles O20: the image stays canonical in every step, and the pc even, for only well-formed instructions are executed. -/
theorem stepKeepsTheInvariant : Obligations.StepKeepsTheInvariant := fun _ _ ⟨hwf, even⟩ h =>
  ⟨Machine.step_keeps_wf hwf h, Machine.step_keeps_even even h⟩

/-- Settles O21: the reset state evaluated, and a normal form for whatever INIT_MEM lists. -/
theorem invariantHoldsAtTheStart : Obligations.InvariantHoldsAtTheStart :=
  ⟨by decide, fun _ hp even => ⟨Machine.start_wf hp, even⟩⟩

/-- Settles O22: no effect of an instruction and no fault writes either field. -/
theorem stepKeepsTheParameters : Obligations.StepKeepsTheParameters := fun _ _ => Machine.step_keeps_parameters

/-- Settles O23: the start has each property and every step keeps it; from an ended run there is no step. -/
theorem reachedStatesAreWellFormed : Obligations.ReachedStatesAreWellFormed := by
  intro p t hp h
  have parameters : t.memSize = p.memSize ∧ t.handler = p.handler := by
    refine h.keeps (P := fun u => u.memSize = p.memSize ∧ u.handler = p.handler) ⟨rfl, rfl⟩ fun u v hu hstep => ?_
    obtain ⟨hsize, hhandler⟩ := Machine.step_keeps_parameters hstep
    exact ⟨hsize.trans hu.1, hhandler.trans hu.2⟩
  have canonical : t.wf := h.keeps (Machine.start_wf hp) fun _ _ => Machine.step_keeps_wf
  refine ⟨canonical, parameters.1, parameters.2, fun ended u hu => ?_⟩
  cases ht : t.status with
  | running => exact absurd ht ended
  | terminated r => exact hu.eq_of_terminated ht

/-- Settles O24: the pc was aligned at the fetch, so an advance by 4 keeps it aligned and a transfer keeps it even. -/
theorem misalignedPcComesFromATransfer : Obligations.MisalignedPcComesFromATransfer := by
  intro s t h ht misaligned
  obtain ⟨i, hf, hwf, aligned, hexec⟩ := Machine.instr_of_step_of_running h ht
  have even := Machine.exec_keeps_even_of_running hwf (by omega) hexec ht
  refine ⟨by omega, i, hf, ?_⟩
  by_contra hi
  rw [Machine.pc_of_exec_of_running (Bool.not_eq_true _ ▸ hi) hexec ht, Machine.toNat_nextPc] at misaligned
  omega

/-- Settles O25: the step executes the instruction, whose next pc is `nextPc`. -/
theorem otherInstructionsAdvanceByFour : Obligations.OtherInstructionsAdvanceByFour := by
  intro s t i hf hi h ht
  obtain ⟨j, hj, -, -, hexec⟩ := Machine.instr_of_step_of_running h ht
  obtain rfl : i = j := Except.ok.inj (hf.symm.trans hj)
  rw [Machine.pc_of_exec_of_running hi hexec ht, Machine.toNat_nextPc]

/-- Settles O26: x0 never changes, a fault changes no register, and an instruction at most its destination. -/
theorem onlyTheDestinationRegisterChanges : Obligations.OnlyTheDestinationRegisterChanges := by
  intro s t r h changed
  have nonzero : r ≠ 0#5 := by
    rintro rfl
    exact changed (by rw [Regs.read_zero, Regs.read_zero])
  obtain ⟨-, ⟨f, -, rfl⟩ | ⟨i, hf, hexec⟩⟩ := Machine.step_cases h
  · exact absurd rfl changed
  · exact ⟨nonzero, i, hf, Machine.dest_of_exec_register_changes hexec changed⟩

/-- Settles O27: a fault changes no byte, and an instruction at most those its store covers. -/
theorem onlyStoredBytesChange : Obligations.OnlyStoredBytesChange := by
  intro s t a hs h changed
  obtain ⟨-, ⟨f, -, rfl⟩ | ⟨i, hf, hexec⟩⟩ := Machine.step_cases h
  · exact absurd rfl changed
  · exact ⟨i, hf, Machine.storeAccess_of_exec_byte_changes hs hexec changed⟩

end Sys2Proof

/-! PROOFS. The memory image (R42, R60 to R65): every image has one canonical form, a read gives the bytes and a write sets
them, and what is read where a value was written is its low bytes. -/

namespace Sys2Proof

theorem zext_thirtyTwo (v : Word) : zext 32 v = v := by
  rw [zext, BitVec.setWidth_eq, BitVec.setWidth_eq]

namespace Memory

theorem within_mono {m : Memory} {size size' : Nat} (h : m.within size) (hle : size ≤ size') : m.within size' :=
  fun c hc => Nat.lt_of_lt_of_le (h c hc) hle

theorem read_of_within {m : Memory} {size a : Nat} (h : m.within size) (ha : size ≤ a) : m.read a = unlisted :=
  read_unlisted fun c hc => Nat.ne_of_lt (Nat.lt_of_lt_of_le (h c hc) ha)

/-- The canonical memory of an image, written byte by byte from address 0. -/
def ofImage (image : Nat → Byte) : Nat → Memory
  | 0 => []
  | size + 1 => (ofImage image size).write size (image size)

theorem ofImage_wf (image : Nat → Byte) (size : Nat) : (ofImage image size).wf := by
  induction size with
  | zero => exact ⟨.nil, nofun⟩
  | succ size ih => exact write_wf ih _ _

theorem ofImage_within (image : Nat → Byte) (size : Nat) : (ofImage image size).within size := by
  induction size with
  | zero => exact nofun
  | succ size ih => exact write_within (within_mono ih (Nat.le_succ size)) (Nat.lt_succ_self size) _

theorem read_ofImage (image : Nat → Byte) {size a : Nat} (ha : a < size) : (ofImage image size).read a = image a := by
  induction size with
  | zero => exact absurd ha (Nat.not_lt_zero a)
  | succ size ih =>
    rw [ofImage, read_write (ofImage_wf image size)]
    split_ifs with last
    · rw [last]
    · exact ih (by omega)

theorem eq_of_read_within {m m' : Memory} {size : Nat} (h : m.wf) (h' : m'.wf) (hs : m.within size)
    (hs' : m'.within size) (e : ∀ a, a < size → m.read a = m'.read a) : m = m' := by
  refine eq_of_read h h' fun a => ?_
  by_cases ha : a < size
  · exact e a ha
  · rw [read_of_within hs (Nat.not_lt.mp ha), read_of_within hs' (Nat.not_lt.mp ha)]

/-! ### Little-endian values -/

theorem toNat_readLE_lt (m : Memory) (a n : Nat) : (m.readLE a n).toNat < 2 ^ (8 * n) := by
  refine Nat.lt_pow_two_of_testBit _ fun i hi => ?_
  rw [BitVec.testBit_toNat, getLsbD_readLE, decide_eq_false (by omega), Bool.false_and]

/-- Byte `k` of a value read is the byte at distance `k` (R61). -/
theorem extractLsb'_readLE (m : Memory) (a : Nat) {n k : Nat} (hk : k < n) (hn : n ≤ 4) :
    (m.readLE a n).extractLsb' (8 * k) 8 = m.read (a + k) := by
  refine BitVec.eq_of_getLsbD_eq fun j hj => ?_
  have byte : (8 * k + j) / 8 = k := by omega
  have bit : (8 * k + j) % 8 = j := by omega
  rw [BitVec.getLsbD_extractLsb', getLsbD_readLE, byte, bit, decide_eq_true hj,
    decide_eq_true (p := _ ∧ _) (by omega), Bool.true_and, Bool.true_and]

theorem read_writeLE_of_mem {m : Memory} (h : m.wf) (a : Nat) {n k : Nat} (hk : k < n) (v : Word) :
    (m.writeLE a n v).read (a + k) = v.extractLsb' (8 * k) 8 := by
  rw [read_writeLE h, if_pos (by omega), Nat.add_sub_cancel_left]

/-- What was written is read back (R61, R72). -/
theorem readLE_writeLE {m : Memory} (h : m.wf) (a n : Nat) (v : Word) :
    (m.writeLE a n v).readLE a n = zext (8 * n) v := by
  refine BitVec.eq_of_getLsbD_eq fun i hi => ?_
  rw [getLsbD_readLE, getLsbD_zext v hi]
  by_cases low : i < 8 * n
  · have bit : 8 * (i / 8) + i % 8 = i := Nat.div_add_mod i 8
    have byte : i % 8 < 8 := Nat.mod_lt i (by decide)
    rw [read_writeLE_of_mem h a (by omega), BitVec.getLsbD_extractLsb', bit]
    simp [low, hi, byte]
  · simp [low]

theorem readLE_writeLE_four {m : Memory} (h : m.wf) (a : Nat) (v : Word) : (m.writeLE a 4 v).readLE a 4 = v := by
  rw [readLE_writeLE h, zext_thirtyTwo]

end Memory

/-- Settles O29: both facts are laws of the memory image. -/
theorem byteWritesAreReadBack : Obligations.ByteWritesAreReadBack := fun _ a v h =>
  ⟨Memory.write_wf h a v, Memory.read_write h a v⟩

/-- Settles O30: the image written byte by byte; and past the size nothing is listed, so that equal bytes below it are
equal bytes everywhere. -/
theorem everyImageHasOneCanonicalForm : Obligations.EveryImageHasOneCanonicalForm :=
  ⟨fun size image => ⟨Memory.ofImage image size, Memory.ofImage_wf image size, Memory.ofImage_within image size,
      fun _ => Memory.read_ofImage image⟩,
    fun _ _ _ h h' hs hs' => Memory.eq_of_read_within h h' hs hs'⟩

/-- Settles O31: in bounds the little-endian value, whose bytes are those of the image. -/
theorem checkedReadsAreLittleEndian : Obligations.CheckedReadsAreLittleEndian := by
  refine fun s addr n hn => ⟨fun inside => ?value, fun outside => ?fault⟩
  case value =>
    exact ⟨_, Machine.memRead_inBounds inside, Memory.toNat_readLE_lt _ _ _,
      fun k hk => Memory.extractLsb'_readLE _ _ hk (by omega)⟩
  case fault => exact Machine.memRead_outOfBounds (Nat.not_le.mpr outside)

/-- Settles O32: in bounds the image with the bytes written, whose other bytes are as before. -/
theorem checkedWritesAreLittleEndian : Obligations.CheckedWritesAreLittleEndian := by
  refine fun s addr n v hn hs => ⟨fun inside => ?value, fun outside => ?fault⟩
  case value =>
    refine ⟨_, Machine.memWrite_inBounds inside, Memory.writeLE_wf hs _ _ _,
      fun k hk => Memory.read_writeLE_of_mem hs _ hk v, fun a ha => ?_⟩
    rw [Memory.read_writeLE hs, if_neg (by omega)]
  case fault => exact Machine.memWrite_outOfBounds (Nat.not_le.mpr outside)

end Sys2Proof

/-! PROOFS. Loads and stores (R200 to R205, R220 to R223): what each does inside the image and outside it, and what a load or
a fetch sees of a store before it. -/

namespace Sys2Proof

/-! ### Extension (R26, R68) -/

theorem sext_setWidth {n : Nat} (hn : n ≤ 32) (b : BitVec n) : sext n (b.setWidth 32) = b.signExtend 32 := by
  rw [sext, BitVec.setWidth_setWidth_of_le _ hn, BitVec.setWidth_eq]

theorem zext_setWidth {n : Nat} (hn : n ≤ 32) (b : BitVec n) : zext n (b.setWidth 32) = b.setWidth 32 := by
  rw [zext, BitVec.setWidth_setWidth_of_le _ hn, BitVec.setWidth_eq]

theorem setWidth_zext {n : Nat} (hn : n ≤ 32) (v : Word) : (zext n v).setWidth n = v.setWidth n := by
  rw [zext, BitVec.setWidth_setWidth_of_le _ hn, BitVec.setWidth_eq]

namespace Machine

/-- Extension looks at the low bytes only. -/
theorem extendLoaded_zext {n : Nat} (hn : n ≤ 4) (signed : Bool) (v : Word) :
    extendLoaded n signed (zext (8 * n) v) = extendLoaded n signed v := by
  have low := setWidth_zext (n := 8 * n) (by omega) v
  cases signed
  case false => exact congrArg (BitVec.setWidth 32) low
  case true => exact congrArg (BitVec.signExtend 32) low

theorem extendLoaded_true_readLE_one (m : Memory) (a : Nat) :
    extendLoaded 1 true (m.readLE a 1) = (m.read a).signExtend 32 := by
  rw [Memory.readLE_one]
  exact sext_setWidth (n := 8) (by decide) _

theorem extendLoaded_false_readLE_one (m : Memory) (a : Nat) :
    extendLoaded 1 false (m.readLE a 1) = (m.read a).setWidth 32 := by
  rw [Memory.readLE_one]
  exact zext_setWidth (n := 8) (by decide) _

theorem extendLoaded_true_readLE_two (m : Memory) (a : Nat) :
    extendLoaded 2 true (m.readLE a 2) = (m.read (a + 1) ++ m.read a).signExtend 32 := by
  rw [Memory.readLE_two]
  exact sext_setWidth (n := 16) (by decide) _

theorem extendLoaded_false_readLE_two (m : Memory) (a : Nat) :
    extendLoaded 2 false (m.readLE a 2) = (m.read (a + 1) ++ m.read a).setWidth 32 := by
  rw [Memory.readLE_two]
  exact zext_setWidth (n := 16) (by decide) _

/-- A load inside the image (R200), its result in any form `v` equal to the extended bytes. -/
theorem load_completes {n : Nat} {signed : Bool} {rs1 : Reg} {imm v : Word} {s : State}
    (inside : inBounds s (effectiveAddr s rs1 imm) n)
    (value : extendLoaded n signed (s.mem.readLE (effectiveAddr s rs1 imm).toNat n) = v) (rd : Reg) :
    ∃ t, load n signed rd rs1 imm s = .next t ∧ OnlyRegister s t rd v ∧ t.pc = s.pc + 4#32 ∧ MemoryKept s t ∧
      RunKept s t := by
  subst value
  exact ⟨_, load_inBounds inside, onlyRegister_writeReg_withPc s rd _ _, rfl, ⟨rfl, fun _ => rfl⟩, rfl, rfl⟩

/-- A store inside the image (R220). -/
theorem store_completes {n : Nat} {rs1 : Reg} {imm : Word} {s : State} (hs : s.mem.wf)
    (inside : inBounds s (effectiveAddr s rs1 imm) n) (rs2 : Reg) :
    ∃ t, store n rs1 rs2 imm s = .next t ∧ RegistersKept s t ∧ t.pc = s.pc + 4#32 ∧ t.memSize = s.memSize ∧
      RunKept s t ∧ ∀ a, t.mem.read a =
        if (effectiveAddr s rs1 imm).toNat ≤ a ∧ a < (effectiveAddr s rs1 imm).toNat + n then
          (s.x.read rs2).extractLsb' (8 * (a - (effectiveAddr s rs1 imm).toNat)) 8
        else s.mem.read a :=
  ⟨_, store_inBounds inside, fun _ => rfl, rfl, rfl, ⟨rfl, rfl⟩, Memory.read_writeLE hs _ n _⟩

/-- A load or store outside the image (R303). -/
theorem endedBy_of_outOfBounds {i : Instr} {s : State} {a : Word} {n : Nat} (ha : dataAccess i s = some (a, n))
    (outside : s.memSize < a.toNat + n) : ∃ t, exec i s = .next t ∧ EndedBy (.outOfBounds a n) s t :=
  ⟨_, exec_of_outOfBounds ha (Nat.not_le.mpr outside), rfl, rfl, rfl, rfl, rfl, rfl⟩

/-- The image after a store inside it, as a checked read sees it at the stored address. -/
theorem memRead_after_store {n : Nat} {rs1 rs2 : Reg} {imm : Word} {s : State} (hs : s.mem.wf)
    (inside : inBounds s (effectiveAddr s rs1 imm) n) :
    ∃ t, store n rs1 rs2 imm s = .next t ∧ t.status = s.status ∧ t.pc = nextPc s ∧
      memRead t (effectiveAddr s rs1 imm) n = .ok (zext (8 * n) (s.x.read rs2)) := by
  refine ⟨_, store_inBounds inside, rfl, rfl, (if_pos inside).trans ?_⟩
  exact congrArg Except.ok (Memory.readLE_writeLE hs _ n _)

/-- V1.4: a load of the width of the store before it, from the same address. -/
theorem load_after_store {n : Nat} (hn : n ≤ 4) (signed : Bool) {rs1 rs2 : Reg} {imm : Word} {s : State}
    (hs : s.mem.wf) (inside : inBounds s (effectiveAddr s rs1 imm) n) :
    ∃ t, store n rs1 rs2 imm s = .next t ∧ ∀ rd base offset, effectiveAddr t base offset = effectiveAddr s rs1 imm →
      ∃ u, load n signed rd base offset t = .next u ∧
        OnlyRegister t u rd (extendLoaded n signed (s.x.read rs2)) := by
  obtain ⟨t, hstore, -, -, hread⟩ := memRead_after_store (rs2 := rs2) hs inside
  refine ⟨t, hstore, fun rd base offset same => ?_⟩
  rw [← extendLoaded_zext hn]
  exact load_of_memRead (same ▸ hread) signed rd

end Machine

/-- Settles O41: each load is `load` at its width and signedness, and its bytes are those `readLE` puts together. -/
theorem loadsReadAndExtend : Obligations.LoadsReadAndExtend := by
  intro p hp rd rs1 imm s inside
  simp only [List.mem_cons, List.not_mem_nil, or_false] at hp
  obtain rfl | rfl | rfl | rfl | rfl := hp
  · exact Machine.load_completes inside (Machine.extendLoaded_true_readLE_one ..) rd
  · exact Machine.load_completes inside (Machine.extendLoaded_true_readLE_two ..) rd
  · exact Machine.load_completes inside ((Machine.extendLoaded_four true _).trans (Memory.readLE_four ..)) rd
  · exact Machine.load_completes inside (Machine.extendLoaded_false_readLE_one ..) rd
  · exact Machine.load_completes inside (Machine.extendLoaded_false_readLE_two ..) rd

/-- Settles O43: a load's data access is its address and width. -/
theorem loadsOutsideTheImageFault : Obligations.LoadsOutsideTheImageFault := by
  intro p hp rd rs1 imm s outside
  simp only [List.mem_cons, List.not_mem_nil, or_false] at hp
  obtain rfl | rfl | rfl | rfl | rfl := hp <;> exact Machine.endedBy_of_outOfBounds rfl outside

/-- Settles O44: each store is `store` at its width. -/
theorem storesWriteTheLowBytes : Obligations.StoresWriteTheLowBytes := by
  intro p hp rs1 rs2 imm s hs inside
  simp only [List.mem_cons, List.not_mem_nil, or_false] at hp
  obtain rfl | rfl | rfl := hp <;> exact Machine.store_completes hs inside rs2

/-- Settles O45: a store's data access is its address and width. -/
theorem storesOutsideTheImageFault : Obligations.StoresOutsideTheImageFault := by
  intro p hp rs1 rs2 imm s outside
  simp only [List.mem_cons, List.not_mem_nil, or_false] at hp
  obtain rfl | rfl | rfl := hp <;> exact Machine.endedBy_of_outOfBounds rfl outside

/-- Settles O33: each pair is `store` and `load` at one width, and a word needs no extension. -/
theorem loadsReturnWhatStoresWrote : Obligations.LoadsReturnWhatStoresWrote := by
  intro p hp s rs1 rs2 imm hs inside
  simp only [List.mem_cons, List.not_mem_nil, or_false] at hp
  obtain rfl | rfl | rfl | rfl | rfl := hp
  · exact Machine.load_after_store (by decide) true hs inside
  · exact Machine.load_after_store (by decide) false hs inside
  · exact Machine.load_after_store (by decide) true hs inside
  · exact Machine.load_after_store (by decide) false hs inside
  · exact Machine.extendLoaded_four true (s.x.read rs2) ▸ Machine.load_after_store (by decide) true hs inside

/-- Settles O34: the byte at distance `k` is byte `k` of the stored register; in an image of at most 2^32 bytes the address
does not wrap. -/
theorem byteLoadsSeeTheStoredWord : Obligations.ByteLoadsSeeTheStoredWord := by
  intro s rs1 rs2 imm ⟨⟨_, (size : s.memSize ≤ 2 ^ 32)⟩, hs, _⟩ inside
  obtain ⟨t, hstore, -, -, hsize, -, bytes⟩ := Machine.store_completes hs inside rs2
  refine ⟨t, hstore, fun rd base offset k hk same => ?_⟩
  have addr : (Machine.effectiveAddr t base offset).toNat = (s.x.read rs1 + imm).toNat + k := by
    rw [Machine.effectiveAddr, same, BitVec.toNat_add, BitVec.toNat_ofNat]
    omega
  obtain ⟨u, hload, hreg, -⟩ := Machine.load_completes (s := t) (n := 1) (signed := false) (rs1 := base) (imm := offset)
    (by omega) rfl rd
  refine ⟨u, _, hload, hreg, ?_⟩
  rw [Machine.extendLoaded_false_readLE_one, addr, bytes, Machine.effectiveAddr, if_pos (by omega),
    Nat.add_sub_cancel_left, BitVec.toNat_setWidth_of_le (by decide), BitVec.extractLsb'_toNat,
    Nat.shiftRight_eq_div_pow]

/-- Settles O35: the checked read at the next pc gives the stored register, and the run still goes on. -/
theorem storesAreSeenByTheNextFetch : Obligations.StoresAreSeenByTheNextFetch := by
  intro s rs1 rs2 imm hr hs target aligned inside
  rw [← target] at aligned inside
  obtain ⟨t, hstore, hstatus, hpc, hread⟩ := Machine.memRead_after_store (rs2 := rs2) hs inside
  have next : t.pc = Machine.effectiveAddr s rs1 imm := hpc.trans target.symm
  have fetched : Machine.fetch t = .ok (s.x.read rs2) := by
    rw [Machine.fetch_of_aligned (next ▸ aligned), next, hread, zext_thirtyTwo]
  exact ⟨t, hstore, fetched,
    fun i hd => Machine.step_of_instr (hstatus.trans hr) (Machine.fetchDecode_of_instr fetched hd)⟩

end Sys2Proof

/-! PROOFS. Jumps and branches (R161, R170, R171, R180 to R186), ALU instructions (R231 to R241, R250 to R280): the shape of
each meaning, and the ALU operation or comparison in the form its statement asks for. -/

namespace Sys2Proof

namespace Machine

/-! ### Jumps and branches -/

/-- A jump writes the address after it and goes to its target, unchecked (R147, R170, R171). -/
theorem jumpAndLink_completes (rd : Reg) (target : Word) (s : State) :
    ∃ t, jumpAndLink rd target s = .next t ∧ OnlyRegister s t rd (s.pc + 4#32) ∧ t.pc = target ∧
      MemoryKept s t ∧ RunKept s t :=
  ⟨_, rfl, onlyRegister_writeReg_withPc s rd _ _, rfl, ⟨rfl, fun _ => rfl⟩, rfl, rfl⟩

/-- A branch whose comparison decides `taken` (R180). -/
theorem branchesWhen_of_branch {kind : Reg → Reg → Word → Instr} {c : Comparison} {taken : Word → Word → Prop}
    (runs : ∀ rs1 rs2 imm s, exec (kind rs1 rs2 imm) s = branch c rs1 rs2 imm s)
    (decides : ∀ a b, compareWords c a b = true ↔ taken a b) : BranchesWhen kind taken := by
  refine fun rs1 rs2 imm s => ⟨_, runs rs1 rs2 imm s, fun h => ?taken, fun h => ?fallsThrough, fun _ => rfl,
    ⟨rfl, fun _ => rfl⟩, rfl, rfl⟩
  case taken => exact if_pos ((decides _ _).mpr h)
  case fallsThrough => exact if_neg fun compared => h ((decides _ _).mp compared)

/-! ### The ALU -/

/-- What an OP instruction does (R270). -/
theorem writesResult_of_opReg {i : Instr} {op : AluOp} {rd rs1 rs2 : Reg}
    (runs : ∀ s, exec i s = opReg op rd rs1 rs2 s) :
    WritesResult i rd fun s => alu op (s.x.read rs1) (s.x.read rs2) :=
  writesResult_of_commitReg runs

theorem alu_slt (a b : Word) : alu .slt a b = if a.toInt < b.toInt then 1#32 else 0#32 := by
  simp [alu, boolWord, compareWords]

theorem alu_sltu (a b : Word) : alu .sltu a b = if a.toNat < b.toNat then 1#32 else 0#32 := by
  simp [alu, boolWord, compareWords]

theorem alu_add_eq_ofInt (a b : Word) : alu .add a b = BitVec.ofInt 32 (a.toInt + b.toInt) := by
  rw [BitVec.ofInt_add, BitVec.ofInt_toInt, BitVec.ofInt_toInt, alu]

/-- The amount of a shift is its low five bits (R236). -/
theorem shiftAmount_and (b : Word) : shiftAmount (b &&& 31#32) = shiftAmount b := by
  rw [shiftAmount_eq_mod, shiftAmount_eq_mod, BitVec.toNat_and]
  exact (congrArg (· % 32) (Nat.and_two_pow_sub_one_eq_mod b.toNat 5)).trans (Nat.mod_mod ..)

@[simp] theorem toNat_shamtOperand (shamt : BitVec 5) : (shamtOperand shamt).toNat = shamt.toNat :=
  BitVec.toNat_setWidth_of_le (by decide)

theorem toNat_shamtOperand_mod (shamt : BitVec 5) : (shamtOperand shamt).toNat % 32 = shamt.toNat := by
  rw [toNat_shamtOperand]
  exact Nat.mod_eq_of_lt shamt.isLt

theorem alu_sll_shamt (a : Word) (shamt : BitVec 5) :
    alu .sll a (shamtOperand shamt) = BitVec.ofNat 32 (a.toNat * 2 ^ shamt.toNat) := by
  refine BitVec.eq_of_toNat_eq ?_
  rw [alu_sll_toNat, toNat_shamtOperand_mod, BitVec.toNat_ofNat]

theorem alu_srl_shamt (a : Word) (shamt : BitVec 5) :
    alu .srl a (shamtOperand shamt) = BitVec.ofNat 32 (a.toNat / 2 ^ shamt.toNat) := by
  rw [← toNat_shamtOperand_mod, ← alu_srl_toNat, BitVec.ofNat_toNat, BitVec.setWidth_eq]

/-- An arithmetic shift right is the signed quotient, rounded down (R239). -/
theorem alu_sra_shamt (a : Word) (shamt : BitVec 5) :
    alu .sra a (shamtOperand shamt) = BitVec.ofInt 32 (a.toInt / 2 ^ shamt.toNat) := by
  calc alu .sra a (shamtOperand shamt)
      = BitVec.ofInt 32 (a.sshiftRight shamt.toNat).toInt := by
        rw [alu, shiftAmount_eq_mod, toNat_shamtOperand_mod, BitVec.ofInt_toInt]
    _ = BitVec.ofInt 32 (a.toInt / 2 ^ shamt.toNat) := by
        rw [BitVec.toInt_sshiftRight, Int.shiftRight_eq_div_pow]
        norm_cast

end Machine

/-- Settles O37: AUIPC commits the sum modulo 2^32. -/
theorem auipcAddsToItsOwnAddress : Obligations.AuipcAddsToItsOwnAddress := fun rd _ =>
  Machine.writesResult_of_commitReg fun s =>
    congrArg (fun v => Machine.commitReg rd v (Machine.nextPc s) s) (BitVec.eq_of_toNat_eq (BitVec.toNat_add ..))

/-- Settles O38: a jump to a sum modulo 2^32. -/
theorem jalLinksAndJumps : Obligations.JalLinksAndJumps := by
  intro rd imm s
  obtain ⟨t, hexec, hreg, hpc, hkept⟩ := Machine.jumpAndLink_completes rd (Machine.pcRelative s imm) s
  exact ⟨t, hexec, hreg, hpc ▸ Machine.toNat_pcRelative s imm, hkept⟩

/-- Settles O39: a jump to the sum with bit 0 cleared, formed before the link is written. -/
theorem jalrLinksAndJumps : Obligations.JalrLinksAndJumps := by
  intro rd rs1 imm s
  obtain ⟨t, hexec, hreg, hpc, hkept⟩ := Machine.jumpAndLink_completes rd (Machine.jalrTarget s rs1 imm) s
  exact ⟨t, hexec, hreg, hpc ▸ Machine.toNat_and_clear_bit_zero _, hkept⟩

/-- Settles O40: the comparison of each branch decides its relation. -/
theorem branchesFollowTheirComparison : Obligations.BranchesFollowTheirComparison := by
  refine ⟨?beq, ?bne, ?blt, ?bge, ?bltu, ?bgeu⟩
  case beq => exact Machine.branchesWhen_of_branch (c := .eq) (fun _ _ _ _ => rfl) fun _ _ => beq_iff_eq
  case bne => exact Machine.branchesWhen_of_branch (c := .ne) (fun _ _ _ _ => rfl) fun _ _ => bne_iff_ne
  case blt => exact Machine.branchesWhen_of_branch (c := .lt) (fun _ _ _ _ => rfl) fun _ _ => decide_eq_true_iff
  case bge => exact Machine.branchesWhen_of_branch (c := .ge) (fun _ _ _ _ => rfl) fun _ _ => decide_eq_true_iff
  case bltu => exact Machine.branchesWhen_of_branch (c := .ltu) (fun _ _ _ _ => rfl) fun _ _ => decide_eq_true_iff
  case bgeu => exact Machine.branchesWhen_of_branch (c := .geu) (fun _ _ _ _ => rfl) fun _ _ => decide_eq_true_iff

/-- Settles O46: the ALU's addition and comparisons of the register and the immediate. -/
theorem immediateArithmetic : Obligations.ImmediateArithmetic := fun _ _ _ =>
  ⟨Machine.writesResult_of_opImm (op := .add) (fun _ => rfl) fun _ => Machine.alu_add_eq_ofInt ..,
    Machine.writesResult_of_opImm (op := .slt) (fun _ => rfl) fun _ => Machine.alu_slt ..,
    Machine.writesResult_of_opImm (op := .sltu) (fun _ => rfl) fun _ => Machine.alu_sltu ..⟩

/-- Settles O48: the ALU's shifts by an amount below 32. -/
theorem immediateShifts : Obligations.ImmediateShifts := fun _ _ shamt =>
  ⟨Machine.writesResult_of_opImm (op := .sll) (fun _ => rfl) fun _ => Machine.alu_sll_shamt _ shamt,
    Machine.writesResult_of_opImm (op := .srl) (fun _ => rfl) fun _ => Machine.alu_srl_shamt _ shamt,
    Machine.writesResult_of_opImm (op := .sra) (fun _ => rfl) fun _ => Machine.alu_sra_shamt _ shamt⟩

/-- Settles O49: each OP instruction is `opReg` of its operation. -/
theorem registerArithmetic : Obligations.RegisterArithmetic := by
  intro p hp rd rs1 rs2
  simp only [List.mem_cons, List.not_mem_nil, or_false] at hp
  obtain rfl | rfl | rfl | rfl | rfl | rfl | rfl | rfl | rfl | rfl := hp <;>
    exact Machine.writesResult_of_opReg fun _ => rfl

/-- Settles O51: sums and differences modulo 2^32, comparisons, and the amount of the three shifts. -/
theorem aluArithmeticAndComparison : Obligations.AluArithmeticAndComparison := by
  refine fun a b => ⟨?add, ?sub, Machine.alu_slt a b, Machine.alu_sltu a b, fun op hop => ?shifts⟩
  case add => exact BitVec.toNat_add a b
  case sub =>
    rw [Machine.alu, BitVec.toNat_sub, Nat.add_comm]
  case shifts =>
    simp only [List.mem_cons, List.not_mem_nil, or_false] at hop
    obtain rfl | rfl | rfl := hop <;> rw [Machine.alu, Machine.alu, Machine.shiftAmount_and]

end Sys2Proof

/-! PROOFS. What comes from outside the block: the start of a run (R340), the handler's answer (R290 to R294), and the word
placed for the next fetch (log 9). -/

namespace Sys2Proof

namespace Machine

/-- An answer is never a fault (R291, R292, R309). -/
theorem answer_status_of_fault {e : EnvResponse} {s : State} {f : CoreFault}
    (h : (answer e s).status = .terminated (.fault f)) : (answer e s).status = s.status := by
  cases e
  case terminate => cases h
  case resume => rfl

theorem askHandler_constant {s : State} {e : EnvResponse} (h : s.handler = .constant e) : askHandler s = e := by
  simp only [askHandler, h]

theorem askHandler_external {s : State} (h : s.handler = .external) :
    askHandler s = Config.envHandler (envRequest s) := by
  simp only [askHandler, h]

theorem decode_of_decodeTableWord {nbits w : Nat} {i : Instr} (h : decodeTableWord nbits w = some i) :
    decode (tableWord nbits w) = .instr i := by
  cases hd : decode (tableWord nbits w) <;> simp_all [decodeTableWord]

/-- A word stored where the pc fetches is fetched (R61, R72). -/
theorem fetch_of_stored {s : State} (hs : s.mem.wf) (h : fetchable s) (v : Word) :
    fetch ((s.withMem (s.mem.writeLE s.pc.toNat 4 v)).withStatus .running) = .ok v := by
  have fetched := fetch_of_fetchable (s := (s.withMem (s.mem.writeLE s.pc.toNat 4 v)).withStatus .running) h
  exact fetched.trans (congrArg Except.ok (Memory.readLE_writeLE_four hs _ v))

/-- In an image of at least one word, the placed word is the next one fetched: at `pc`, or at address 0 (log 9). -/
theorem fetch_withFetchWord {s : State} (hs : s.mem.wf) (room : 4 ≤ s.memSize) (nbits w : Nat) :
    fetch (s.withFetchWord nbits w) = .ok (tableWord nbits w) := by
  by_cases h : fetchable s
  · rw [State.withFetchWord, if_pos h]
    exact fetch_of_stored hs h _
  · rw [State.withFetchWord, if_neg h]
    exact fetch_of_stored (s := s.withPc 0x00000000#32) hs ⟨rfl, room⟩ _

end Machine

/-- Settles O10: zero registers, and a canonical INIT_MEM is its own normal form. -/
theorem startOfARun : Obligations.StartOfARun := fun _ hwf hwithin =>
  ⟨Regs.read_replicate, rfl, Memory.ofCells_of_canonical hwf hwithin, rfl, rfl, rfl⟩

/-- Settles O52: the next state is `answer` of what the handler says; its cases are Terminate and Resume. -/
theorem ecallActsOnTheAnswer : Obligations.EcallActsOnTheAnswer := by
  intro s
  refine ⟨_, rfl, Machine.answer_memSize _ s, Machine.answer_handler _ s, fun f => Machine.answer_status_of_fault,
    fun e => Machine.askHandler_constant, Machine.askHandler_external, fun h => ?terminate, fun x' mem' h => ?resume⟩
  case terminate =>
    rw [h]
    exact ⟨rfl, fun _ => rfl, rfl, rfl⟩
  case resume =>
    rw [h]
    exact ⟨rfl, Regs.read_zero x', rfl, rfl, Memory.ofCells_wf _ _, Memory.ofCells_within _ _,
      Memory.ofCells_of_canonical⟩

/-- Settles O53: the placed word is fetched, in a running state. -/
theorem placedWordRunsNext : Obligations.PlacedWordRunsNext := fun _ nbits w _ hs room h =>
  Machine.step_of_instr rfl
    (Machine.fetchDecode_of_instr (Machine.fetch_withFetchWord hs room nbits w) (Machine.decode_of_decodeTableWord h))

end Sys2Proof

/-! PROOFS. Noninterference (R34, R145): an instruction that does not name a register as a source does the same in two states
that agree off that register. -/

namespace Sys2Proof

namespace Machine

/-- `s` and `s'` agree on everything but what register `r` reads as. -/
structure AgreeOff (r : Reg) (s s' : State) : Prop where
  pc : s'.pc = s.pc
  mem : s'.mem = s.mem
  memSize : s'.memSize = s.memSize
  status : s'.status = s.status
  handler : s'.handler = s.handler
  regs : ∀ q, q ≠ r → s'.x.read q = s.x.read q

/-- `i` completes in both states and leaves them agreeing off `r`, and on `r` too where it is written. -/
def SameOff (r : Reg) (i : Instr) (s s' : State) : Prop :=
  ∃ t t', exec i s = .next t ∧ exec i s' = .next t' ∧ AgreeOff r t t' ∧
    (i.dest = some r → s.status = .running → t.status = .running → t'.x.read r = t.x.read r)

theorem agreeOff_writeReg (s : State) (r : Reg) (v : Word) : AgreeOff r s (s.writeReg r v) where
  pc := rfl
  mem := rfl
  memSize := rfl
  status := rfl
  handler := rfl
  regs _ hq := Regs.read_write_of_ne s.x hq v

section

variable {r : Reg} {i : Instr} {s s' : State} (h : AgreeOff r s s')
include h

theorem AgreeOff.nextPc_eq : nextPc s' = nextPc s := congrArg (· + 4#32) h.pc

theorem AgreeOff.pcRelative_eq (imm : Word) : pcRelative s' imm = pcRelative s imm := congrArg (· + imm) h.pc

theorem AgreeOff.read_of_mem {l : List Reg} (hr : r ∉ l) {q : Reg} (hq : q ∈ l) : s'.x.read q = s.x.read q :=
  h.regs q fun e => hr (e ▸ hq)

theorem AgreeOff.effectiveAddr_eq {l : List Reg} (hr : r ∉ l) {rs1 : Reg} (h1 : rs1 ∈ l) (imm : Word) :
    effectiveAddr s' rs1 imm = effectiveAddr s rs1 imm := congrArg (· + imm) (h.read_of_mem hr h1)

theorem AgreeOff.inBounds_iff (a : Word) (n : Nat) : inBounds s' a n ↔ inBounds s a n := by
  rw [inBounds, h.memSize]

theorem AgreeOff.withPc (pc : Word) : AgreeOff r (s.withPc pc) (s'.withPc pc) := { h with pc := rfl }

theorem AgreeOff.withMem (mem : Memory) : AgreeOff r (s.withMem mem) (s'.withMem mem) := { h with mem := rfl }

theorem AgreeOff.withStatus (status : Status) : AgreeOff r (s.withStatus status) (s'.withStatus status) :=
  { h with status := rfl }

theorem AgreeOff.writeReg (rd : Reg) (v : Word) : AgreeOff r (s.writeReg rd v) (s'.writeReg rd v) :=
  { h with
    regs := fun q hq => by
      rw [State.writeReg_x, State.writeReg_x, Regs.read_write, Regs.read_write, h.regs q hq] }

/-- Both states commit one value to one register and one next pc. -/
theorem sameOff_of_commitReg {rd : Reg} {v pc : Word} (hd : i.dest = some rd) (e : exec i s = commitReg rd v pc s)
    (e' : exec i s' = commitReg rd v pc s') : SameOff r i s s' := by
  refine ⟨_, _, e, e', (h.writeReg rd v).withPc pc, fun hr _ _ => ?_⟩
  obtain rfl : rd = r := Option.some.inj (hd.symm.trans hr)
  by_cases hzero : rd = 0#5
  · simp [hzero]
  · rw [State.withPc_x, State.withPc_x, State.writeReg_x, State.writeReg_x, Regs.read_write_same _ hzero,
      Regs.read_write_same _ hzero]

theorem sameOff_of_opReg {op : AluOp} {rd rs1 rs2 : Reg} (hd : i.dest = some rd)
    (runs : ∀ u, exec i u = opReg op rd rs1 rs2 u) (hr : r ∉ [rs1, rs2]) : SameOff r i s s' := by
  refine sameOff_of_commitReg h hd (runs s) ((runs s').trans ?_)
  rw [opReg, aluInto, h.read_of_mem (q := rs1) hr (by simp), h.read_of_mem (q := rs2) hr (by simp), h.nextPc_eq]

theorem sameOff_of_opImm {op : AluOp} {rd rs1 : Reg} {b : Word} (hd : i.dest = some rd)
    (runs : ∀ u, exec i u = opImm op rd rs1 b u) (hr : r ∉ [rs1]) : SameOff r i s s' := by
  refine sameOff_of_commitReg h hd (runs s) ((runs s').trans ?_)
  rw [opImm, aluInto, h.read_of_mem hr (.head _), h.nextPc_eq]

theorem sameOff_of_branch {c : Comparison} {rs1 rs2 : Reg} {imm : Word} (hd : i.dest = none)
    (runs : ∀ u, exec i u = branch c rs1 rs2 imm u) (hr : r ∉ [rs1, rs2]) : SameOff r i s s' := by
  refine ⟨_, _, runs s, runs s', ?_, by simp [hd]⟩
  rw [h.read_of_mem (q := rs1) hr (by simp), h.read_of_mem (q := rs2) hr (by simp), h.pcRelative_eq, h.nextPc_eq]
  exact h.withPc _

/-- Both states fault alike at one access outside the image. -/
theorem sameOff_of_outOfBounds {a : Word} {n : Nat} (ha : dataAccess i s = some (a, n))
    (ha' : dataAccess i s' = some (a, n)) (outside : ¬ inBounds s a n) : SameOff r i s s' := by
  have outside' : ¬ inBounds s' a n := (h.inBounds_iff a n).not.mpr outside
  refine ⟨_, _, exec_of_outOfBounds ha outside, exec_of_outOfBounds ha' outside', h.withStatus _, fun _ _ ht => ?_⟩
  cases ht

theorem sameOff_of_load {n : Nat} {signed : Bool} {rd rs1 : Reg} {imm : Word} (hd : i.dest = some rd)
    (runs : ∀ u, exec i u = load n signed rd rs1 imm u)
    (ha : ∀ u, dataAccess i u = some (effectiveAddr u rs1 imm, n)) (hr : r ∉ [rs1]) : SameOff r i s s' := by
  have addr := h.effectiveAddr_eq hr (.head _) imm
  by_cases inside : inBounds s (effectiveAddr s rs1 imm) n
  case neg => exact sameOff_of_outOfBounds h (ha s) (addr ▸ ha s') inside
  refine sameOff_of_commitReg h hd ((runs s).trans (load_inBounds inside)) ((runs s').trans ?_)
  have inside' : inBounds s' (effectiveAddr s' rs1 imm) n := addr ▸ (h.inBounds_iff _ n).mpr inside
  rw [load_inBounds inside', addr, h.mem, h.nextPc_eq]
  rfl

theorem sameOff_of_store {n : Nat} {rs1 rs2 : Reg} {imm : Word} (hd : i.dest = none)
    (runs : ∀ u, exec i u = store n rs1 rs2 imm u)
    (ha : ∀ u, dataAccess i u = some (effectiveAddr u rs1 imm, n)) (hr : r ∉ [rs1, rs2]) :
    SameOff r i s s' := by
  have addr := h.effectiveAddr_eq hr (.head _) imm
  by_cases inside : inBounds s (effectiveAddr s rs1 imm) n
  case neg => exact sameOff_of_outOfBounds h (ha s) (addr ▸ ha s') inside
  have inside' : inBounds s' (effectiveAddr s' rs1 imm) n := addr ▸ (h.inBounds_iff _ n).mpr inside
  refine ⟨_, _, (runs s).trans (store_inBounds inside), (runs s').trans (store_inBounds inside'), ?_, by simp [hd]⟩
  rw [addr, h.mem, h.read_of_mem (q := rs2) hr (by simp), h.nextPc_eq]
  exact (h.withMem _).withPc _

/-- Every instruction but ECALL, by the shape of its meaning. -/
theorem sameOff_of_not_source (hi : i ≠ .ecall) (hr : r ∉ i.sources) : SameOff r i s s' := by
  cases i
  case lui rd imm => exact sameOff_of_commitReg h rfl rfl (congrArg (commitReg rd imm · s') h.nextPc_eq)
  case auipc rd imm =>
    exact sameOff_of_commitReg h rfl rfl (congrArg₂ (commitReg rd · · s') (h.pcRelative_eq imm) h.nextPc_eq)
  case jal rd imm =>
    exact sameOff_of_commitReg h rfl rfl (congrArg₂ (commitReg rd · · s') h.nextPc_eq (h.pcRelative_eq imm))
  case jalr rd rs1 imm =>
    have target : jalrTarget s' rs1 imm = jalrTarget s rs1 imm :=
      congrArg (· &&& 0xFFFFFFFE#32) (h.effectiveAddr_eq (l := [rs1]) hr (.head _) imm)
    exact sameOff_of_commitReg h rfl rfl (congrArg₂ (commitReg rd · · s') h.nextPc_eq target)
  case beq | bne | blt | bge | bltu | bgeu => exact sameOff_of_branch h rfl (fun _ => rfl) hr
  case lb | lh | lw | lbu | lhu => exact sameOff_of_load h rfl (fun _ => rfl) (fun _ => rfl) hr
  case sb | sh | sw => exact sameOff_of_store h rfl (fun _ => rfl) (fun _ => rfl) hr
  case addi | slti | sltiu | xori | ori | andi | slli | srli | srai => exact sameOff_of_opImm h rfl (fun _ => rfl) hr
  case add | sub | sll | slt | sltu | xor | srl | sra | or | and => exact sameOff_of_opReg h rfl (fun _ => rfl) hr
  case ecall => exact absurd rfl hi

end

end Machine

/-- Settles O28: a state and the same state with an unread register set agree off that register. -/
theorem unreadRegistersDoNotMatter : Obligations.UnreadRegistersDoNotMatter := by
  intro i s r v hi hr
  obtain ⟨t, t', hexec, hexec', same, dest⟩ := Machine.sameOff_of_not_source (Machine.agreeOff_writeReg s r v) hi hr
  exact ⟨t, t', hexec, hexec', same.pc, same.mem, same.memSize, same.status, same.handler, same.regs, dest⟩

end Sys2Proof
